-- ==== Sys2Proof/Word.lean ====
section
/-! DEFINITION. The types of the engine's data: the 32-bit word, the byte, the 64-byte block and buffer, and the
128-bit chaining state of four words (00_scope R7, 10_state R20, R21, R24). -/

namespace Sys2Proof

/-- A 32-bit unsigned word (00_scope R7). -/
abbrev Word := BitVec 32

/-- One byte of CIN, ROUT, BUF or a block. -/
abbrev Byte := BitVec 8

/-- A 64-byte block, and the partial-block buffer BUF[0..63] (00_scope R7, 10_state R24). -/
abbrev Block := Vector Byte 64

/-- Four 32-bit words A, B, C, D, "A first": the chaining state (10_state R21), a state operand or result
(30_encoding R61, R62), and the four working registers a, b, c, d of one compression (10_state R22). -/
structure Chain where
  a : Word
  b : Word
  c : Word
  d : Word
deriving DecidableEq, Repr

end Sys2Proof
end

