-- ==== Sys2Proof/Config.lean ====
section
/-! DEFINITION. What the spec leaves free: the values A to D, BUF and L hold after a FINALIZE (10_state R36,
93_implementation_defined U3). Each is a constant with no body, so that nothing can be proved of any one value. It is
applied to the model's own counter `draws`, to A to D, BUF and L as FINALIZE's pseudocode leaves them, and, where there
are several of a kind, to a position: an engine that keeps these values and one that scrubs them are both among what it
allows. Log entry 3. -/

namespace Sys2Proof

/-- The word left in A (position 0), B (1), C (2) or D (3) after a FINALIZE. -/
opaque Config.freeWord : Nat → Chain → Block → BitVec 64 → Nat → Word

/-- The byte left in BUF at a position after a FINALIZE. -/
opaque Config.freeByte : Nat → Chain → Block → BitVec 64 → Nat → Byte

/-- The message byte count, modulo 2^61, that L shows after a FINALIZE: L stays a multiple of 8 (10_state R25), and
nothing else is known of it. -/
opaque Config.freeByteCount : Nat → Chain → Block → BitVec 64 → BitVec 61

end Sys2Proof
end

