-- ==== Sys2Proof/Machine/Operands.lean ====
section
/-! DEFINITION. Byte order and operand forms: LE32, bytes32, bytes64 (00_scope R13), the state operand of 16 bytes and
the block operand of 64 bytes (30_encoding R61), and the 16 result bytes (30_encoding R62). -/

namespace Sys2Proof.Machine

/-- `LE32(b0, b1, b2, b3)` (00_scope R13). -/
def le32 (b0 b1 b2 b3 : Byte) : Word :=
  b0.setWidth 32 ||| (b1.setWidth 32 <<< 8) ||| (b2.setWidth 32 <<< 16) ||| (b3.setWidth 32 <<< 24)

/-- `bytes32(w) = [w[7:0], w[15:8], w[23:16], w[31:24]]` (00_scope R13). -/
def bytes32 (w : Word) : List Byte :=
  [w.extractLsb' 0 8, w.extractLsb' 8 8, w.extractLsb' 16 8, w.extractLsb' 24 8]

/-- `bytes64(v)`: eight bytes, least significant first (00_scope R13). -/
def bytes64 (v : BitVec 64) : List Byte :=
  [v.extractLsb' 0 8, v.extractLsb' 8 8, v.extractLsb' 16 8, v.extractLsb' 24 8,
   v.extractLsb' 32 8, v.extractLsb' 40 8, v.extractLsb' 48 8, v.extractLsb' 56 8]

/-- Byte `i` of an operand. The decoder calls it only below the operand's length. -/
def operandByte (p : List Byte) (i : Nat) : Byte := p.getD i 0

/-- The word `LE32(p[k..k+3])` of an operand (30_encoding R61). -/
def operandWord (p : List Byte) (k : Nat) : Word :=
  le32 (operandByte p k) (operandByte p (k + 1)) (operandByte p (k + 2)) (operandByte p (k + 3))

/-- The state in the first 16 bytes of an operand, words A, B, C, D (30_encoding R61). -/
def chainOfBytes (p : List Byte) : Chain :=
  ⟨operandWord p 0, operandWord p 4, operandWord p 8, operandWord p 12⟩

/-- The 64-byte block in the first 64 bytes given, in order (30_encoding R61). -/
def blockOfBytes (p : List Byte) : Block :=
  ⟨((List.range 64).map (operandByte p)).toArray, by simp⟩

/-- `bytes32(A) ‖ bytes32(B) ‖ bytes32(C) ‖ bytes32(D)`: the byte form of a state as operand and as result, and the
digest layout (30_encoding R61, R62, 20_memory R44). -/
def chainBytes (st : Chain) : List Byte :=
  bytes32 st.a ++ bytes32 st.b ++ bytes32 st.c ++ bytes32 st.d

/-- `X[i] = LE32(blk[4i], blk[4i+1], blk[4i+2], blk[4i+3])` for i in 0..15 (20_memory R42). -/
def blockWord (blk : Block) (i : Fin 16) : Word :=
  le32 (blk[4 * i.val]'(by omega)) (blk[4 * i.val + 1]'(by omega)) (blk[4 * i.val + 2]'(by omega))
    (blk[4 * i.val + 3]'(by omega))

end Sys2Proof.Machine
end

