-- ==== Sys2Proof/Syntax.lean ====
section
/-! DEFINITION. The engine's six commands, one constructor per row of spec/opcode_table.json. A command is its command
word and its operand bytes (00_scope R19, 30_encoding R55, R56), so a constructor holds the decoded operands. -/

namespace Sys2Proof

/-- The six commands (30_encoding R58). -/
inductive Instr where
  /-- INIT, no operands (41_accumulator R90). -/
  | init
  /-- UPDATE with its LEN message bytes; LEN is the length of the list (41_accumulator R91, 30_encoding R59). -/
  | update (data : List Byte)
  /-- FINALIZE, no operands (41_accumulator R95). -/
  | finalize
  /-- COMPRESS with a state and a 64-byte block (40_compression R83, 30_encoding R61). -/
  | compress (st : Chain) (blk : Block)
  /-- REVERSE with a state (42_reversal R110). -/
  | reverse (st : Chain)
  /-- UNREVERSE with a state (42_reversal R111). -/
  | unreverse (st : Chain)
deriving DecidableEq, Repr

end Sys2Proof
end

