-- ==== Sys2Proof/WellFormed.lean ====
section
/-! DEFINITION. Which terms of Instr are commands the encoding can spell. The operand types already fix the widths of
states and blocks; the one check left is UPDATE's 24-bit LEN (30_encoding R59). -/

namespace Sys2Proof

/-- The most data bytes one UPDATE can carry: the largest 24-bit LEN (00_scope R8, 30_encoding R59). -/
def maxUpdateLen : Nat := 16777215

/-- The encoding can spell the command. -/
def Instr.wf : Instr → Bool
  | .init => true
  | .update data => decide (data.length ≤ maxUpdateLen)
  | .finalize => true
  | .compress _ _ => true
  | .reverse _ => true
  | .unreverse _ => true

/-- `Instr.wf` as a proposition. -/
abbrev Instr.WellFormed (i : Instr) : Prop := i.wf = true

end Sys2Proof
end

