-- ==== Sys2Proof/Decode.lean ====
section
/-! DEFINITION. Decoding a command from the bytes at CIN[CP..] and encoding one (30_encoding R55 to R65). The decoder is
total and rejects by name; it reads only bytes, never the engine's state. -/

namespace Sys2Proof

open Sys2Proof.Machine

/-- The six listed opcodes (30_encoding R58). -/
inductive Opcode where
  | init | update | finalize | compress | reverse | unreverse
deriving DecidableEq, Repr

/-- The opcode's value (30_encoding R58). -/
def Opcode.code : Opcode → Byte
  | .init => 0x01
  | .update => 0x02
  | .finalize => 0x03
  | .compress => 0x04
  | .reverse => 0x05
  | .unreverse => 0x06

/-- The opcode of a value; every value not listed is reserved (30_encoding R58, R63). -/
def opcodeOf (v : Byte) : Option Opcode :=
  if v = 0x01 then some .init
  else if v = 0x02 then some .update
  else if v = 0x03 then some .finalize
  else if v = 0x04 then some .compress
  else if v = 0x05 then some .reverse
  else if v = 0x06 then some .unreverse
  else none

/-- OPC = W[7:0] (30_encoding R57). -/
def wordOpc (w : Word) : Byte := w.extractLsb' 0 8

/-- ARG = W[31:8] (30_encoding R57). -/
def wordArg (w : Word) : BitVec 24 := w.extractLsb' 8 24

/-- OPLEN of a command word with this opcode and ARG (30_encoding R56). -/
def oplenOf (op : Opcode) (arg : BitVec 24) : Nat :=
  match op with
  | .init => 0
  | .update => arg.toNat
  | .finalize => 0
  | .compress => 80
  | .reverse => 16
  | .unreverse => 16

/-- What a command word says: a legal command with its OPLEN, or one of the two encoding errors. -/
inductive WordKind where
  /-- A legal word: the opcode and how many operand bytes follow. -/
  | legal (op : Opcode) (oplen : Nat)
  /-- OPC is reserved (30_encoding R63). -/
  | illegalOpcode
  /-- OPC is not UPDATE's and ARG is not 0 (30_encoding R60). -/
  | reservedField
deriving DecidableEq, Repr

/-- Checks 1 and 2 of 30_encoding R64 on a command word, in that order. -/
def decodeWord (w : Word) : WordKind :=
  match opcodeOf (wordOpc w) with
  | none => .illegalOpcode
  | some op =>
    if op ≠ .update ∧ wordArg w ≠ 0 then .reservedField
    else .legal op (oplenOf op (wordArg w))

/-- The command of an opcode and its operand bytes (30_encoding R59, R61). -/
def buildCommand (op : Opcode) (p : List Byte) : Instr :=
  match op with
  | .init => .init
  | .update => .update p
  | .finalize => .finalize
  | .compress => .compress (chainOfBytes p) (blockOfBytes (p.drop 16))
  | .reverse => .reverse (chainOfBytes p)
  | .unreverse => .unreverse (chainOfBytes p)

/-- What the decoder finds at the head of a byte sequence. -/
inductive Decoded where
  /-- A whole command, and the bytes after it. -/
  | command (i : Instr) (rest : List Byte)
  /-- Fewer than the 4 bytes of a command word are there (20_memory R49). -/
  | missingWord
  /-- The word is legal and operand bytes are missing (20_memory R49). -/
  | missingOperands (op : Opcode)
  /-- The command word's opcode is reserved (30_encoding R63). -/
  | illegalOpcode
  /-- The command word's reserved field is not 0 (30_encoding R60). -/
  | reservedField
deriving DecidableEq, Repr

/-- Decode the command at the head of `bs`: W is assembled little-endian from 4 bytes (30_encoding R55), and its OPLEN
operand bytes follow (R56). -/
def decode (bs : List Byte) : Decoded :=
  match bs with
  | b0 :: b1 :: b2 :: b3 :: rest =>
    match decodeWord (le32 b0 b1 b2 b3) with
    | .illegalOpcode => .illegalOpcode
    | .reservedField => .reservedField
    | .legal op n =>
      if rest.length < n then .missingOperands op
      else .command (buildCommand op (rest.take n)) (rest.drop n)
  | _ => .missingWord

/-! The encoder. -/

/-- The opcode of a command (30_encoding R58). -/
def Instr.opcode : Instr → Opcode
  | .init => .init
  | .update _ => .update
  | .finalize => .finalize
  | .compress _ _ => .compress
  | .reverse _ => .reverse
  | .unreverse _ => .unreverse

/-- The operand bytes of a command in stream order (30_encoding R59, R61). -/
def Instr.operandBytes : Instr → List Byte
  | .init => []
  | .update data => data
  | .finalize => []
  | .compress st blk => chainBytes st ++ blk.toList
  | .reverse st => chainBytes st
  | .unreverse st => chainBytes st

/-- ARG of a command: LEN for UPDATE, 0 otherwise (30_encoding R57). -/
def Instr.arg : Instr → BitVec 24
  | .init => 0
  | .update data => BitVec.ofNat 24 data.length
  | .finalize => 0
  | .compress _ _ => 0
  | .reverse _ => 0
  | .unreverse _ => 0

/-- W: ARG in bits 31:8, OPC in bits 7:0 (30_encoding R57). -/
def Instr.commandWord (i : Instr) : Word := i.arg ++ i.opcode.code

/-- The bytes of a command in CIN: the command word, then the operands (30_encoding R55). -/
def encode (i : Instr) : List Byte := bytes32 i.commandWord ++ i.operandBytes

/-- A command's length in CIN, `4 + OPLEN` (30_encoding R56). -/
def Instr.size : Instr → Nat
  | .init => 4
  | .update data => 4 + data.length
  | .finalize => 4
  | .compress _ _ => 84
  | .reverse _ => 20
  | .unreverse _ => 20

/-- RESLEN: how many result bytes a command appends (30_encoding R56). -/
def Instr.reslen : Instr → Nat
  | .init => 0
  | .update _ => 0
  | .finalize => 16
  | .compress _ _ => 16
  | .reverse _ => 16
  | .unreverse _ => 16

/-! The opcode table's numbering of an instruction's bits. -/

/-- `n` bytes of a number, least significant first. -/
def natBytes (v : Nat) : Nat → List Byte
  | 0 => []
  | n + 1 => BitVec.ofNat 8 v :: natBytes (v / 256) n

/-- The CIN bytes of an instruction whose bits are `w`, of which the table gives the low `nbits`: the word is sent
least significant byte first, and the operand bytes above `nbits` are 0. -/
def tableBytes (nbits w : Nat) : List Byte :=
  let v := w % 2 ^ nbits
  match decodeWord (BitVec.ofNat 32 v) with
  | .legal _ n => natBytes v (4 + n)
  | .illegalOpcode => natBytes v 4
  | .reservedField => natBytes v 4

/-- The instruction the decoder reads from the bits `w` as spec/opcode_table.json numbers them; none where it refuses. -/
def decodeTableWord (nbits w : Nat) : Option Instr :=
  match decode (tableBytes nbits w) with
  | .command i _ => some i
  | .missingWord => none
  | .missingOperands _ => none
  | .illegalOpcode => none
  | .reservedField => none

end Sys2Proof
end

