-- ==== Sys2Proof/Machine/State.lean ====
section
/-! DEFINITION. The state of one engine instance (10_state R20), its reset value (R34), and the ways a step can stop. -/

namespace Sys2Proof.Machine

/-- LC, the accumulator lifecycle (10_state R27). -/
inductive Lifecycle where
  /-- No INIT since reset. -/
  | uninit
  /-- INIT done, FINALIZE not yet done. -/
  | active
  /-- FINALIZE done. -/
  | spent
deriving DecidableEq, Repr

/-- CAUSE, the code of the first fault since reset (60_exceptions R121). -/
inductive Cause where
  /-- No fault since reset. -/
  | none
  /-- OPC is 0x00 or at least 0x07 (60_exceptions R122). -/
  | illegalOpcode
  /-- A reserved ARG is not 0 (60_exceptions R123). -/
  | reservedField
  /-- UPDATE or FINALIZE in UNINIT (60_exceptions R124). -/
  | notInitialised
  /-- UPDATE or FINALIZE in SPENT (60_exceptions R125). -/
  | accumulatorSpent
deriving DecidableEq, Repr

/-- One engine instance: the elements of 10_state R20, the host's input CIN, and the model's counter `draws`. -/
structure State where
  /-- A, B, C, D: the chaining state (10_state R21). -/
  chain : Chain
  /-- BUF[0..63]: the partial block (10_state R24). -/
  buf : Block
  /-- L: the message bits taken since INIT, modulo 2^64 (10_state R25). -/
  len : BitVec 64
  /-- LC (10_state R27). -/
  lc : Lifecycle
  /-- FAULT, the sticky fault indicator (10_state R28). -/
  fault : Bool
  /-- CAUSE (10_state R28). -/
  cause : Cause
  /-- CP: the CIN bytes consumed since reset (10_state R30). -/
  cp : Nat
  /-- ROUT: the result bytes produced since reset (10_state R31). -/
  rout : List Byte
  /-- CIN: every byte the host has written since reset (20_memory R41). The host's input, log entry 1. -/
  cin : List Byte
  /-- The model's own counter of free values drawn, log entry 3. -/
  draws : Nat
deriving DecidableEq, Repr

/-- The ways a step stops without a next state. None of them is an effect of an instruction: the engine's own faults
are taken as next states (60_exceptions R127). -/
inductive Fault where
  /-- FAULT is 1: the engine is halted and takes no command (60_exceptions R128). Raised by the fetch and by every
  meaning. Safe: the spec says that no command runs and nothing changes. -/
  | halted (cause : Cause)
  /-- CIN holds part of the next command only: the engine takes no step until the host supplies the rest or resets it
  (20_memory R49, 70_reset R147, 93 U13). Raised by the fetch. Safe: a stuck state, as the spec says. -/
  | incomplete
  /-- CIN holds no byte beyond CP: every command ran, and the engine waits for the next one (70_reset R150, 20_memory
  R49). Raised by the fetch. Safe: the spec gives no step there. -/
  | streamEnd
deriving DecidableEq, Repr

/-- Reasons the model has no meaning for a command. -/
inductive Refusal where
  /-- The instruction of that mnemonic has no meaning in the model yet. Raised by the dispatch only; no arm does. Safe:
  the model stops. -/
  | notModelled (mnemonic : String)
deriving DecidableEq, Repr

/-- The engine right after reset (10_state R34, 70_reset R141). The spec states no value for A to D, BUF and L there:
they are 0 by DESIGN CHOICE, log entry 2. CIN is empty until the host writes it, log entry 1. -/
def State.reset : State where
  chain := ⟨0, 0, 0, 0⟩
  buf := Vector.replicate 64 0
  len := 0
  lc := .uninit
  fault := false
  cause := .none
  cp := 0
  rout := []
  cin := []
  draws := 0

end Sys2Proof.Machine
end

