-- ==== Sys2Proof/Machine/Flags.lean ====
section
/-! DEFINITION. STATUS, the one register the host can read (10_state R29), and the codes of its fields. The engine has
no condition codes and no arithmetic flags (10_state R33). -/

namespace Sys2Proof.Machine

/-- The encoding of LC (10_state R27). -/
def Lifecycle.code : Lifecycle → BitVec 2
  | .uninit => 0
  | .active => 1
  | .spent => 2

/-- The CAUSE code (60_exceptions R121). -/
def Cause.code : Cause → Byte
  | .none => 0x00
  | .illegalOpcode => 0x01
  | .reservedField => 0x02
  | .notInitialised => 0x03
  | .accumulatorSpent => 0x04

/-- STATUS: CAUSE in 15:8, FAULT in 2, LC in 1:0, every other bit 0 (10_state R29). -/
def State.status (s : State) : BitVec 32 :=
  (0 : BitVec 16) ++ s.cause.code ++ (0 : BitVec 5) ++ BitVec.ofBool s.fault ++ s.lc.code

end Sys2Proof.Machine
end

