-- ==== Sys2Proof/Machine/Ops.lean ====
section
/-! DEFINITION. The named operations on the state that the commands share: the command stream, the result stream, the
buffer, fault entry, the lifecycle checks. The engine has no memory (20_memory R40) and no return from a fault
(60_exceptions R129). -/

namespace Sys2Proof.Machine

/-- The outcome of a step of this machine. -/
abbrev Result := Host.Outcome State Fault Refusal

/-- The CIN bytes from offset CP on (20_memory R41). -/
def State.pending (s : State) : List Byte := s.cin.drop s.cp

/-- A command that completes adds its full length to CP (10_state R30). -/
def State.advance (s : State) (n : Nat) : State := { s with cp := s.cp + n }

/-- `Out(bs)`: append to ROUT (00_scope R15, 10_state R31). -/
def State.emit (s : State) (bs : List Byte) : State := { s with rout := s.rout ++ bs }

/-- `OCC = L[8:3]` (10_state R26). -/
def occOf (len : BitVec 64) : Nat := (len.extractLsb' 3 6).toNat

/-- The buffer occupancy (10_state R26). -/
def State.occ (s : State) : Nat := occOf s.len

/-- Fault entry: FAULT and CAUSE are written, nothing else changes (60_exceptions R127). -/
def State.enterFault (s : State) (c : Cause) : State := { s with fault := true, cause := c }

/-- A to D, BUF and L as an INIT or UPDATE leaves them; BUF is given where it is written. -/
def State.setAccumulator (s : State) (chain : Chain) (buf : Block) (len : BitVec 64) : State :=
  { s with chain := chain, buf := buf, len := len }

/-- LC is written. -/
def State.setLifecycle (s : State) (lc : Lifecycle) : State := { s with lc := lc }

/-- After FINALIZE, A to D, BUF and L hold no defined value (10_state R36): each takes a free value, and the model's
counter moves on. L stays a multiple of 8 (10_state R25). Log entry 3. -/
def State.undefineAccumulator (s : State) : State :=
  { s with
    chain := ⟨Config.freeWord s.draws s.chain s.buf s.len 0, Config.freeWord s.draws s.chain s.buf s.len 1,
      Config.freeWord s.draws s.chain s.buf s.len 2, Config.freeWord s.draws s.chain s.buf s.len 3⟩
    buf := ⟨((List.range 64).map (Config.freeByte s.draws s.chain s.buf s.len)).toArray, by simp⟩
    len := Config.freeByteCount s.draws s.chain s.buf s.len ++ (0 : BitVec 3)
    draws := s.draws + 1 }

/-- Write bytes to consecutive buffer positions from `pos` on, as the pseudocode's loops over BUF do. -/
def writeBytes (buf : Block) (pos : Nat) : List Byte → Block
  | [] => buf
  | b :: bs => writeBytes (buf.setIfInBounds pos b) (pos + 1) bs

/-- `for i in lo..hi-1: BUF[i] <- 0x00` (41_accumulator R95). -/
def zeroFill (buf : Block) (lo hi : Nat) : Block := writeBytes buf lo (List.replicate (hi - lo) 0)

/-- Checks 3 and 4 of 30_encoding R64: UPDATE and FINALIZE need LC = ACTIVE (60_exceptions R124, R125). -/
def lifecycleFault (op : Opcode) (lc : Lifecycle) : Option Cause :=
  match op with
  | .init => none
  | .compress => none
  | .reverse => none
  | .unreverse => none
  | .update | .finalize =>
    match lc with
    | .uninit => some .notInitialised
    | .active => none
    | .spent => some .accumulatorSpent

/-- Run a command: a halted engine runs none (10_state R28, 60_exceptions R128); a lifecycle fault is taken and none of
the command's effect happens (60_exceptions R127); otherwise the effect happens and CP passes the command. -/
def runCommand (i : Instr) (effect : State → State) (s : State) : Result :=
  if s.fault then .fault (.halted s.cause)
  else
    match lifecycleFault i.opcode s.lc with
    | some c => .next (s.enterFault c)
    | none => .next ((effect s).advance i.size)

end Sys2Proof.Machine
end

