-- ==== Sys2Proof/Machine/Compression.lean ====
section
/-! DEFINITION. The compression engine: rotations, mixing functions, the 48-step schedule, `Compress` (00_scope R12,
40_compression R70 to R82), and the COMPRESS command (R83). -/

namespace Sys2Proof.Machine

/-- The 32-bit left rotation for 1 <= n <= 31 (00_scope R12). -/
def rotl (x : Word) (n : Nat) : Word := (x <<< n) ||| (x >>> (32 - n))

/-- The right rotation, `rotr(x, n) = rotl(x, 32 - n)` (00_scope R12). -/
def rotr (x : Word) (n : Nat) : Word := rotl x (32 - n)

/-- The initial state IV (00_scope R7, R19). -/
def iv : Chain := ⟨0x67452301, 0xefcdab89, 0x98badcfe, 0x10325476⟩

/-- Round 1 mixing function (40_compression R71). -/
def mixF (x y z : Word) : Word := z ^^^ (x &&& (y ^^^ z))

/-- Round 2 mixing function, the bitwise majority (40_compression R72). -/
def mixG (x y z : Word) : Word := (x &&& (y ||| z)) ||| (y &&& z)

/-- Round 3 mixing function (40_compression R73). -/
def mixH (x y z : Word) : Word := x ^^^ y ^^^ z

/-- K_1, the constant of round 1 (40_compression R74). -/
def roundConst1 : Word := 0x00000000

/-- K_2, the constant of round 2 (40_compression R74). -/
def roundConst2 : Word := 0x5a827999

/-- K_3, the constant of round 3 (40_compression R74). -/
def roundConst3 : Word := 0x6ed9eba1

/-- Which mixing function a step uses. -/
inductive Mix where
  | f | g | h
deriving DecidableEq, Repr

/-- The mixing function named. -/
def Mix.apply : Mix → Word → Word → Word → Word
  | .f => mixF
  | .g => mixG
  | .h => mixH

/-- The names of the working registers (10_state R22). -/
inductive Reg where
  | a | b | c | d
deriving DecidableEq, Repr

/-- The working register's value. -/
def readReg (w : Chain) : Reg → Word
  | .a => w.a
  | .b => w.b
  | .c => w.c
  | .d => w.d

/-- The working registers with one of them written. -/
def writeReg (w : Chain) (r : Reg) (v : Word) : Chain :=
  match r with
  | .a => { w with a := v }
  | .b => { w with b := v }
  | .c => { w with c := v }
  | .d => { w with d := v }

/-- One row of the schedule: mixing function, target, the three registers read, word index, rotation, constant
(40_compression R79). -/
structure ScheduleRow where
  f : Mix
  t : Reg
  u : Reg
  v : Reg
  w : Reg
  k : Fin 16
  s : Nat
  const : Word
deriving DecidableEq, Repr

/-- Register roles (t, u, v, w) by `j mod 4` (40_compression R76). -/
def stepRoles (j : Nat) : Reg × Reg × Reg × Reg :=
  match j % 4 with
  | 0 => (.a, .b, .c, .d)
  | 1 => (.d, .a, .b, .c)
  | 2 => (.c, .d, .a, .b)
  | _ => (.b, .c, .d, .a)

/-- The word order of round 3 (40_compression R77). -/
def round3Order : List (Fin 16) := [0, 8, 4, 12, 2, 10, 6, 14, 1, 9, 5, 13, 3, 11, 7, 15]

/-- The word index of step `i` of a round (40_compression R77). -/
def wordIndex (round i : Nat) : Fin 16 :=
  match round with
  | 1 => Fin.ofNat 16 i
  | 2 => Fin.ofNat 16 (4 * (i % 4) + i / 4)
  | _ => round3Order.getD i 0

/-- The rotation amounts of a round (40_compression R78). -/
def rotations (round : Nat) : List Nat :=
  match round with
  | 1 => [3, 7, 11, 19]
  | 2 => [3, 5, 9, 13]
  | _ => [3, 9, 11, 15]

/-- The mixing function of a round (40_compression R71 to R73). -/
def roundMix (round : Nat) : Mix :=
  match round with
  | 1 => .f
  | 2 => .g
  | _ => .h

/-- The constant of a round (40_compression R74). -/
def roundConst (round : Nat) : Word :=
  match round with
  | 1 => roundConst1
  | 2 => roundConst2
  | _ => roundConst3

/-- Row `j` of the table of 40_compression R79: the round is `j / 16 + 1`, the step in it `j mod 16`. -/
def scheduleRow (j : Nat) : ScheduleRow :=
  let round := j / 16 + 1
  let i := j % 16
  let roles := stepRoles j
  { f := roundMix round
    t := roles.1
    u := roles.2.1
    v := roles.2.2.1
    w := roles.2.2.2
    k := wordIndex round i
    s := (rotations round).getD (i % 4) 0
    const := roundConst round }

/-- The 48 rows in order (40_compression R79). -/
def schedule : List ScheduleRow := (List.range 48).map scheduleRow

/-- One step: `t <- rotl(t + f(u, v, w) + X[k] + K, s)` (40_compression R75). -/
def compressStep (blk : Block) (w : Chain) (r : ScheduleRow) : Chain :=
  writeReg w r.t
    (rotl (readReg w r.t + r.f.apply (readReg w r.u) (readReg w r.v) (readReg w r.w) + blockWord blk r.k + r.const)
      r.s)

/-- The working registers after the first `n` steps, seeded from the state (40_compression R80). -/
def workingAfter (st : Chain) (blk : Block) (n : Nat) : Chain := (schedule.take n).foldl (compressStep blk) st

/-- Word by word addition modulo 2^32: the feed-forward (40_compression R81). -/
def addChain (x y : Chain) : Chain := ⟨x.a + y.a, x.b + y.b, x.c + y.c, x.d + y.d⟩

/-- `Compress(S, blk)` (40_compression R80): 48 steps and the feed-forward. -/
def compressBlock (st : Chain) (blk : Block) : Chain := addChain st (workingAfter st blk 48)

/-- COMPRESS (40_compression R83): the compression of the operands to ROUT; the accumulator is neither read nor
written. -/
def execCompress (st : Chain) (blk : Block) (s : State) : Result :=
  runCommand (.compress st blk) (fun s => s.emit (chainBytes (compressBlock st blk))) s

end Sys2Proof.Machine
end

