-- ==== Sys2Proof/Machine/Accumulator.lean ====
section
/-! DEFINITION. The streaming accumulator: INIT, UPDATE, FINALIZE (41_accumulator R90 to R100). -/

namespace Sys2Proof.Machine

/-- What UPDATE's loop carries: A to D, BUF, and the write position `r` (41_accumulator R91). -/
structure Feed where
  chain : Chain
  buf : Block
  r : Nat
deriving DecidableEq, Repr

/-- The body of UPDATE's loop: store one byte, and compress when the buffer is full (41_accumulator R91). -/
def feedByte (x : Feed) (b : Byte) : Feed :=
  let buf := x.buf.setIfInBounds x.r b
  if x.r + 1 = 64 then ⟨compressBlock x.chain buf, buf, 0⟩ else ⟨x.chain, buf, x.r + 1⟩

/-- UPDATE's loop over the data (41_accumulator R91). -/
def feedBytes (x : Feed) (data : List Byte) : Feed := data.foldl feedByte x

/-- UPDATE's effect on A to D, BUF and L (41_accumulator R91, R92). -/
def State.absorb (s : State) (data : List Byte) : State :=
  let x := feedBytes ⟨s.chain, s.buf, s.occ⟩ data
  s.setAccumulator x.chain x.buf (s.len + BitVec.ofNat 64 (8 * data.length))

/-- FINALIZE's last block or blocks: the padding, the length field, and the one or two compressions; the result is A
to D and BUF as the pseudocode leaves them (41_accumulator R95). -/
def padAndCompress (chain : Chain) (buf : Block) (len : BitVec 64) : Chain × Block :=
  let r := occOf len
  let buf := buf.setIfInBounds r 0x80
  let r := r + 1
  let x : Feed :=
    if r > 56 then
      let full := zeroFill buf r 64
      ⟨compressBlock chain full, full, 0⟩
    else ⟨chain, buf, r⟩
  let last := writeBytes (zeroFill x.buf x.r 56) 56 (bytes64 len)
  (compressBlock x.chain last, last)

/-- FINALIZE's effect (41_accumulator R95): pad and compress, the digest to ROUT, LC to SPENT. L is not changed by it
(R98). -/
def State.finish (s : State) : State :=
  let p := padAndCompress s.chain s.buf s.len
  ((s.setAccumulator p.1 p.2 s.len).emit (chainBytes p.1)).setLifecycle .spent

/-- INIT (41_accumulator R90): A to D take IV, L is 0, LC is ACTIVE; BUF is not written. -/
def execInit (s : State) : Result :=
  runCommand .init (fun s => (s.setAccumulator iv s.buf 0).setLifecycle .active) s

/-- UPDATE (41_accumulator R91). -/
def execUpdate (data : List Byte) (s : State) : Result :=
  runCommand (.update data) (fun s => s.absorb data) s

/-- FINALIZE (41_accumulator R95), after which A to D, BUF and L hold no defined value (10_state R36). -/
def execFinalize (s : State) : Result :=
  runCommand .finalize (fun s => s.finish.undefineAccumulator) s

end Sys2Proof.Machine
end

