-- ==== Sys2Proof/Machine/Reversal.lean ====
section
/-! DEFINITION. The state reversal transform and its inverse: REVERSE and UNREVERSE (42_reversal R110, R111). -/

namespace Sys2Proof.Machine

/-- REVERSE's five steps (42_reversal R110). -/
def reverseChain (st : Chain) : Chain :=
  let a := st.a - iv.a
  let b := st.b - iv.b
  let c := st.c - iv.c
  let d := st.d - iv.d
  let b := rotr b 15
  let b := b - (roundConst3 + (c ^^^ d ^^^ a))
  let b := rotr b 15
  let b := b - roundConst3
  ⟨a, b, c, d⟩

/-- UNREVERSE: the inverse steps in reverse order (42_reversal R111). -/
def unreverseChain (st : Chain) : Chain :=
  let b := st.b + roundConst3
  let b := rotl b 15
  let b := b + (roundConst3 + (st.c ^^^ st.d ^^^ st.a))
  let b := rotl b 15
  ⟨st.a + iv.a, b + iv.b, st.c + iv.c, st.d + iv.d⟩

/-- REVERSE (42_reversal R110): legal in every lifecycle, and the accumulator is neither read nor written. -/
def execReverse (st : Chain) (s : State) : Result :=
  runCommand (.reverse st) (fun s => s.emit (chainBytes (reverseChain st))) s

/-- UNREVERSE (42_reversal R111). -/
def execUnreverse (st : Chain) (s : State) : Result :=
  runCommand (.unreverse st) (fun s => s.emit (chainBytes (unreverseChain st))) s

end Sys2Proof.Machine
end

