-- ==== Sys2Proof/Machine/Dispatch.lean ====
section
/-! DEFINITION. The one dispatch from a command to its meaning (30_encoding R58). -/

namespace Sys2Proof.Machine

def exec (i : Instr) (s : State) : Host.Outcome State Fault Refusal :=
  match i with
  | .init => Sys2Proof.Machine.execInit s
  | .update data => Sys2Proof.Machine.execUpdate data s
  | .finalize => Sys2Proof.Machine.execFinalize s
  | .compress st blk => Sys2Proof.Machine.execCompress st blk s
  | .reverse st => Sys2Proof.Machine.execReverse st s
  | .unreverse st => Sys2Proof.Machine.execUnreverse st s

end Sys2Proof.Machine
end

