-- ==== Sys2Proof/Machine/Fetch.lean ====
section
/-! DEFINITION. Taking the next command from CIN: the halted engine, the checks of 30_encoding R64 in their order, and
the wait for missing bytes (20_memory R49); and placing a command's bytes at CP. -/

namespace Sys2Proof.Machine

/-- What the engine finds at CIN[CP..]. -/
inductive Fetched where
  /-- A whole command. -/
  | run (i : Instr)
  /-- The command word raises a fault (60_exceptions R130). -/
  | raise (c : Cause)
  /-- The engine takes no step. -/
  | stop (r : Fault)
deriving DecidableEq, Repr

/-- Checks 1 to 4 of 30_encoding R64, in that order, on a command word and LC alone; the first that applies decides
(60_exceptions R126). -/
def commandWordFault (w : Word) (lc : Lifecycle) : Option Cause :=
  match decodeWord w with
  | .illegalOpcode => some .illegalOpcode
  | .reservedField => some .reservedField
  | .legal op _ => lifecycleFault op lc

/-- Take the next command. A halted engine takes none (60_exceptions R128). A fault is known as soon as the 4 bytes of
the command word are there, before any operand byte is needed (30_encoding R64); a legal command runs once its operand
bytes are there, and until then the engine takes no step (20_memory R49). -/
def fetch (s : State) : Fetched :=
  if s.fault then .stop (.halted s.cause)
  else
    match s.pending with
    | b0 :: b1 :: b2 :: b3 :: rest =>
      match commandWordFault (le32 b0 b1 b2 b3) s.lc with
      | some c => .raise c
      | none =>
        match decode (b0 :: b1 :: b2 :: b3 :: rest) with
        | .command i _ => .run i
        | _ => .stop .incomplete
    | [] => .stop .streamEnd
    | _ => .stop .incomplete

/-- CIN with these bytes at offset `pos`: what stood there is overwritten, and a shorter CIN is filled up with zero
bytes. -/
def placeBytes (cin : List Byte) (pos : Nat) (bs : List Byte) : List Byte :=
  cin.take pos ++ List.replicate (pos - cin.length) 0 ++ bs ++ cin.drop (pos + bs.length)

/-- The state with an opcode-table word's bytes at CP. -/
def placeTableWord (s : State) (nbits w : Nat) : State :=
  { s with cin := placeBytes s.cin s.cp (tableBytes nbits w) }

end Sys2Proof.Machine
end

