-- ==== Sys2Proof/Machine/Step.lean ====
section
/-! DEFINITION. One step of the engine: one whole command taken from CIN, a fault entry, or a stop (20_memory R49, R52).
And the host's way to place one command where the next step takes it. -/

namespace Sys2Proof.Machine

/-- One step. -/
def step (s : State) : Host.Outcome State Fault Refusal :=
  match fetch s with
  | .run i => exec i s
  | .raise c => .next (s.enterFault c)
  | .stop r => .fault r

/-- `s` with the instruction of these opcode-table bits at CIN[CP..], its operand bytes above `nbits` being 0. -/
def State.withFetchWord (s : State) (nbits w : Nat) : State := placeTableWord s nbits w

end Sys2Proof.Machine
end

