-- ==== Sys2Proof/Machine/Assembler.lean ====
section
/-! DEFINITION. The spec's assembler syntax and its two pseudo-instructions (30_encoding R67, R68), over lists of
characters. Spelling points R67 leaves open (blanks, letter case of hex digits, a `;` inside a quoted text) are log
entry 10. -/

namespace Sys2Proof.Machine

/-- `UPDATE` of any number of bytes: chunks of `limit` bytes, then one chunk with the rest (30_encoding R68). The second
argument bounds the number of chunks. DESIGN CHOICE, log entry 16: where the length is an exact multiple of `limit`, the
rest is a last chunk of `limit` bytes, with no empty chunk after it; R68 leaves that open. -/
def splitChunks (limit : Nat) : Nat → List Byte → List (List Byte)
  | 0, m => [m]
  | k + 1, m => if m.length ≤ limit then [m] else m.take limit :: splitChunks limit k (m.drop limit)

/-- The expansion of `UPDATE` with any number of bytes (30_encoding R68). -/
def expandUpdate (m : List Byte) : List Instr := (splitChunks maxUpdateLen m.length m).map .update

/-- The expansion of `HASH` (30_encoding R68). DESIGN CHOICE, log entry 10: more bytes than one UPDATE can carry go as a
long UPDATE. -/
def expandHash (m : List Byte) : List Instr := .init :: (expandUpdate m ++ [.finalize])

/-- The value of a hex digit. -/
def hexDigit (c : Char) : Option Nat :=
  let n := c.toNat
  if 48 ≤ n ∧ n ≤ 57 then some (n - 48)
  else if 97 ≤ n ∧ n ≤ 102 then some (n - 87)
  else if 65 ≤ n ∧ n ≤ 70 then some (n - 55)
  else none

/-- An even number of hex digits, bytes in order (30_encoding R67). -/
def hexBytes : List Char → Option (List Byte)
  | [] => some []
  | [_] => none
  | h :: l :: cs =>
    match hexDigit h, hexDigit l, hexBytes cs with
    | some x, some y, some bs => some (BitVec.ofNat 8 (16 * x + y) :: bs)
    | _, _, _ => none

/-- `0x` and 8 hex digits: a 32-bit word, most significant digit first (30_encoding R67). -/
def hexWord (cs : List Char) : Option Word :=
  match cs with
  | '0' :: 'x' :: ds =>
    match hexBytes ds with
    | some [b3, b2, b1, b0] => some (le32 b0 b1 b2 b3)
    | _ => none
  | _ => none

/-- A blank between the parts of a line. -/
def isBlank (c : Char) : Bool := c = ' ' || c = '\t' || c = '\r'

/-- Without blanks at either end. -/
def trimBlanks (cs : List Char) : List Char := ((cs.dropWhile isBlank).reverse.dropWhile isBlank).reverse

/-- Without the comment that a `;` outside a quoted text starts (30_encoding R67). The flag says whether the next
character stands inside a quoted text. -/
def stripComment : Bool → List Char → List Char
  | _, [] => []
  | true, c :: cs => c :: stripComment (c ≠ '"') cs
  | false, c :: cs => if c = ';' then [] else c :: stripComment (c = '"') cs

/-- The parts between the commas. -/
def splitCommas : List Char → List (List Char)
  | [] => [[]]
  | c :: cs =>
    match splitCommas cs with
    | [] => [[c]]
    | p :: ps => if c = ',' then [] :: p :: ps else (c :: p) :: ps

/-- The rest of `cs` after the prefix `p`. -/
def afterPrefix (p cs : List Char) : Option (List Char) := if cs.take p.length = p then some (cs.drop p.length) else none

/-- The ASCII bytes of a quoted text, up to its closing quote, which must end the line (30_encoding R67). -/
def quotedBytes : List Char → Option (List Byte)
  | [] => none
  | c :: cs =>
    if c = '"' then (if cs = [] then some [] else none)
    else if c.toNat < 128 then (quotedBytes cs).map (BitVec.ofNat 8 c.toNat :: ·)
    else none

/-- The data operand of UPDATE and HASH: `"text"` or `hex:<digits>` (30_encoding R67). -/
def parseData (cs : List Char) : Option (List Byte) :=
  match cs with
  | '"' :: rest => quotedBytes rest
  | _ => (afterPrefix ['h', 'e', 'x', ':'] cs).bind hexBytes

/-- Four words `<A>, <B>, <C>, <D>` (30_encoding R67). -/
def parseWords (parts : List (List Char)) : Option Chain :=
  match parts.map hexWord with
  | [some a, some b, some c, some d] => some ⟨a, b, c, d⟩
  | _ => none

/-- The state operand of REVERSE and UNREVERSE: four words, or `digest:<32 hex digits>` (30_encoding R67). -/
def parseState (cs : List Char) : Option Chain :=
  match afterPrefix ['d', 'i', 'g', 'e', 's', 't', ':'] cs with
  | some ds =>
    match hexBytes ds with
    | some bs => if bs.length = 16 then some (chainOfBytes bs) else none
    | none => none
  | none => parseWords ((splitCommas cs).map trimBlanks)

/-- The operands of COMPRESS: four words and a block of 64 bytes (30_encoding R67). -/
def parseCompress (cs : List Char) : Option Instr :=
  match (splitCommas cs).map trimBlanks with
  | [a, b, c, d, e] =>
    match parseWords [a, b, c, d], parseData e with
    | some st, some bs =>
      if e.head? = some 'h' ∧ bs.length = 64 then some (.compress st (blockOfBytes bs)) else none
    | _, _ => none
  | _ => none

/-- A mnemonic and its operand text as the commands it stands for. -/
def parseCommand (mnemonic operand : List Char) : Option (List Instr) :=
  if mnemonic = ['I', 'N', 'I', 'T'] then (if operand = [] then some [.init] else none)
  else if mnemonic = ['U', 'P', 'D', 'A', 'T', 'E'] then (parseData operand).map expandUpdate
  else if mnemonic = ['F', 'I', 'N', 'A', 'L', 'I', 'Z', 'E'] then (if operand = [] then some [.finalize] else none)
  else if mnemonic = ['C', 'O', 'M', 'P', 'R', 'E', 'S', 'S'] then (parseCompress operand).map ([·])
  else if mnemonic = ['R', 'E', 'V', 'E', 'R', 'S', 'E'] then (parseState operand).map ([.reverse ·])
  else if mnemonic = ['U', 'N', 'R', 'E', 'V', 'E', 'R', 'S', 'E'] then (parseState operand).map ([.unreverse ·])
  else if mnemonic = ['H', 'A', 'S', 'H'] then (parseData operand).map expandHash
  else none

/-- One line: a command, a pseudo-instruction, or nothing but blanks and a comment (30_encoding R67). -/
def parseLine (line : List Char) : Option (List Instr) :=
  let cs := trimBlanks (stripComment false line)
  if cs = [] then some []
  else parseCommand (cs.takeWhile (!isBlank ·)) (trimBlanks (cs.dropWhile (!isBlank ·)))

/-- The lines of a text. -/
def splitLines : List Char → List (List Char)
  | [] => [[]]
  | c :: cs =>
    match splitLines cs with
    | [] => [[c]]
    | l :: ls => if c = '\n' then [] :: l :: ls else (c :: l) :: ls

/-- The commands of a list of lines; none where some line is not of the syntax. -/
def parseProgram : List (List Char) → Option (List Instr)
  | [] => some []
  | l :: ls =>
    match parseLine l, parseProgram ls with
    | some is, some js => some (is ++ js)
    | _, _ => none

/-- The CIN bytes of an assembler text (30_encoding R67 to R69). -/
def assemble (text : List Char) : Option (List Byte) := (parseProgram (splitLines text)).map (·.flatMap encode)

end Sys2Proof.Machine
end

