-- ==== Sys2Proof/Machine/HostPort.lean ====
section
/-! DEFINITION. What the host can do to one engine between steps: supply CIN bytes, apply reset, read STATUS and ROUT
(00_scope R19, 20_memory R41, R50, 70_reset R140, R147). The engine's own step never does any of these. -/

namespace Sys2Proof.Machine

/-- The host writes more bytes to CIN (20_memory R41, 70_reset R147). -/
def State.supply (s : State) (bs : List Byte) : State := { s with cin := s.cin ++ bs }

/-- Reset, in any state, halted or not: every element takes its reset value, the old CIN and ROUT are discarded, and the
host presents a new command stream read from offset 0 (70_reset R140, R141). The model's counter of free values goes on,
so that no two sessions are bound to draw the same ones (log entry 3). -/
def State.hostReset (s : State) (cin : List Byte) : State := { State.reset with cin := cin, draws := s.draws }

/-- A read of STATUS: its value, and the state after the read (10_state R29, 20_memory R50). -/
def State.readStatus (s : State) : BitVec 32 × State := (s.status, s)

/-- A read of the result bytes produced since reset: the bytes, and the state after the read (20_memory R50). -/
def State.readRout (s : State) : List Byte × State := (s.rout, s)

/-- The host's actions that can change an engine's state. -/
inductive HostAction where
  /-- More CIN bytes. -/
  | supply (bs : List Byte)
  /-- Reset with a new command stream. -/
  | reset (cin : List Byte)
  /-- A read of STATUS. -/
  | readStatus
  /-- A read of ROUT. -/
  | readRout
deriving DecidableEq, Repr

/-- The state after a host action. -/
def applyHost (act : HostAction) (s : State) : State :=
  match act with
  | .supply bs => s.supply bs
  | .reset cin => s.hostReset cin
  | .readStatus => s.readStatus.2
  | .readRout => s.readRout.2

/-- The run of a command list, one `exec` after another, stopping where one does not answer a next state. -/
def execAll : List Instr → State → Result
  | [], s => .next s
  | i :: is, s =>
    match exec i s with
    | .next t => execAll is t
    | .fault r => .fault r
    | .refused r => .refused r

end Sys2Proof.Machine
end

