-- ==== Sys2Proof/Machine/Instances.lean ====
section
/-! DEFINITION. Any number of engine instances, each with a whole state of its own and sharing nothing
(60_exceptions R133, 10_state R37). -/

namespace Sys2Proof.Machine

/-- One step of instance `k`: the others keep their state. `none` where there is no instance `k`. -/
def stepInstance (k : Nat) (es : List State) : Option (Host.Outcome (List State) Fault Refusal) :=
  match es[k]? with
  | none => none
  | some s =>
    match step s with
    | .next t => some (.next (es.set k t))
    | .fault r => some (.fault r)
    | .refused r => some (.refused r)

/-- One host action on instance `k`. -/
def applyHostInstance (k : Nat) (act : HostAction) (es : List State) : Option (List State) :=
  match es[k]? with
  | none => none
  | some s => some (es.set k (applyHost act s))

end Sys2Proof.Machine
end

