-- ==== Sys2Proof/Safety.lean ====
section
/-! DEFINITION. The terms claims about the engine use: the MD4 digest of a message as 41_accumulator R102 gives it, what
it means that the accumulator holds a message (10_state R35), the invariants, how a run ends (70_reset R150), and which
state can affect a result (41_accumulator R100). -/

namespace Sys2Proof.Machine

/-! The message and its digest. -/

/-- The complete 64-byte blocks of a byte sequence, in order; a shorter rest is left out (40_compression R82). -/
def blocksOf (bs : List Byte) : List Block :=
  (List.range (bs.length / 64)).map fun k => blockOfBytes (bs.drop (64 * k))

/-- The chaining state after a list of blocks: `S_(i+1) = Compress(S_i, blk_i)` (40_compression R82). -/
def compressAll (st : Chain) (blks : List Block) : Chain := blks.foldl compressBlock st

/-- How many zero bytes pad a message of `n` bytes: the least z with `(n + 1 + z) mod 64 = 56` (41_accumulator R102). -/
def padZeros (n : Nat) : Nat := (119 - n % 64) % 64

/-- The bit length of a message of `n` bytes, modulo 2^64 (41_accumulator R102). -/
def bitLength (n : Nat) : BitVec 64 := BitVec.ofNat 64 (8 * n)

/-- `M ‖ 0x80 ‖ 0^z ‖ bytes64((8 |M|) mod 2^64)` (41_accumulator R102). -/
def paddedMessage (m : List Byte) : List Byte :=
  m ++ [0x80] ++ List.replicate (padZeros m.length) 0 ++ bytes64 (bitLength m.length)

/-- `md4(M)` as the bytes of `Compress(... Compress(IV, P_0) ..., P_(m-1))` (41_accumulator R102). -/
def md4 (m : List Byte) : List Byte := chainBytes (compressAll iv (blocksOf (paddedMessage m)))

/-- The accumulator holds message `m`: A to D are IV compressed with every complete block of `m`, BUF[0..OCC-1] are the
remaining bytes, and L is `8 |m| mod 2^64` (10_state R35). -/
structure State.Holds (s : State) (m : List Byte) : Prop where
  chain : s.chain = compressAll iv (blocksOf m)
  tail : s.buf.toList.take (m.length % 64) = m.drop (64 * (m.length / 64))
  len : s.len = bitLength m.length

/-! Invariants. -/

/-- While LC is ACTIVE the accumulator holds some message (10_state R35). -/
def State.MessageInv (s : State) : Prop := s.lc = .active → ∃ m, s.Holds m

/-- Facts about the state that every step keeps: FAULT is 1 exactly when CAUSE is not 0x00 (10_state R28), CP stays
inside CIN (10_state R30), ROUT holds whole results of 16 bytes (10_state R31), and L is a multiple of 8
(10_state R25). -/
structure State.Wf (s : State) : Prop where
  cause : s.fault = true ↔ s.cause ≠ .none
  cp : s.cp ≤ s.cin.length
  rout : s.rout.length % 16 = 0
  len : s.len.toNat % 8 = 0

/-! What can affect a result. -/

/-- Two states that agree on everything a command can read: LC, FAULT, CAUSE, CP, ROUT, CIN, and, while LC is ACTIVE,
A to D, L and the valid bytes BUF[0..OCC-1]. They may differ in BUF[OCC..63], and outside ACTIVE in all of A to D, BUF
and L (10_state R26, R34, R36, 41_accumulator R100). -/
structure State.Agrees (s t : State) : Prop where
  lc : s.lc = t.lc
  fault : s.fault = t.fault
  cause : s.cause = t.cause
  cp : s.cp = t.cp
  rout : s.rout = t.rout
  cin : s.cin = t.cin
  chain : s.lc = .active → s.chain = t.chain
  len : s.lc = .active → s.len = t.len
  buf : s.lc = .active → s.buf.toList.take s.occ = t.buf.toList.take t.occ

/-! How a run ends. -/

/-- The three ends of a run on a finite CIN (70_reset R150). -/
inductive RunEnd where
  | complete
  | faulted
  | incomplete
deriving DecidableEq, Repr

/-- The command at CP needs more bytes than CIN holds: a part of a command word, or a legal word without all its operand
bytes (70_reset R150, 20_memory R49). -/
def State.needsBytes (s : State) : Bool :=
  match decode s.pending with
  | .missingWord => true
  | .missingOperands op => (lifecycleFault op s.lc).isNone
  | .command _ _ => false
  | .illegalOpcode => false
  | .reservedField => false

/-- The end of the run a state stands at, if it stands at one (70_reset R150). -/
def State.runEnd (s : State) : Option RunEnd :=
  if s.fault then some .faulted
  else if s.cp = s.cin.length then some .complete
  else if s.cp < s.cin.length ∧ s.needsBytes then some .incomplete
  else none

/-- A safe state: no fault has happened (60_exceptions R128: a run that ends halted is a faulted run). -/
def State.Safe (s : State) : Prop := s.fault = false

/-- Every state an instance can be in: reset with some CIN, then steps and host actions in any order. -/
inductive State.Reachable : State → Prop where
  | reset (cin : List Byte) : State.Reachable { State.reset with cin := cin }
  | step {s t : State} : State.Reachable s → Machine.step s = .next t → State.Reachable t
  | host {s : State} (act : HostAction) : State.Reachable s → State.Reachable (applyHost act s)

end Sys2Proof.Machine
end

