-- ==== Sys2Proof/Certificates/Slice0/Obligations.lean ====
section
/-! DEFINITION. The statements about the engine, each formalising the rules of spec/ its docstring names. -/

namespace Sys2Proof.Machine

/-- Rows 0 to 15 of the table of 40_compression R79, copied from it. -/
def tableRound1 : List ScheduleRow := [
  ⟨.f, .a, .b, .c, .d, 0, 3, 0x00000000⟩,
  ⟨.f, .d, .a, .b, .c, 1, 7, 0x00000000⟩,
  ⟨.f, .c, .d, .a, .b, 2, 11, 0x00000000⟩,
  ⟨.f, .b, .c, .d, .a, 3, 19, 0x00000000⟩,
  ⟨.f, .a, .b, .c, .d, 4, 3, 0x00000000⟩,
  ⟨.f, .d, .a, .b, .c, 5, 7, 0x00000000⟩,
  ⟨.f, .c, .d, .a, .b, 6, 11, 0x00000000⟩,
  ⟨.f, .b, .c, .d, .a, 7, 19, 0x00000000⟩,
  ⟨.f, .a, .b, .c, .d, 8, 3, 0x00000000⟩,
  ⟨.f, .d, .a, .b, .c, 9, 7, 0x00000000⟩,
  ⟨.f, .c, .d, .a, .b, 10, 11, 0x00000000⟩,
  ⟨.f, .b, .c, .d, .a, 11, 19, 0x00000000⟩,
  ⟨.f, .a, .b, .c, .d, 12, 3, 0x00000000⟩,
  ⟨.f, .d, .a, .b, .c, 13, 7, 0x00000000⟩,
  ⟨.f, .c, .d, .a, .b, 14, 11, 0x00000000⟩,
  ⟨.f, .b, .c, .d, .a, 15, 19, 0x00000000⟩]

/-- Rows 16 to 31 of the table of 40_compression R79, copied from it. -/
def tableRound2 : List ScheduleRow := [
  ⟨.g, .a, .b, .c, .d, 0, 3, 0x5a827999⟩,
  ⟨.g, .d, .a, .b, .c, 4, 5, 0x5a827999⟩,
  ⟨.g, .c, .d, .a, .b, 8, 9, 0x5a827999⟩,
  ⟨.g, .b, .c, .d, .a, 12, 13, 0x5a827999⟩,
  ⟨.g, .a, .b, .c, .d, 1, 3, 0x5a827999⟩,
  ⟨.g, .d, .a, .b, .c, 5, 5, 0x5a827999⟩,
  ⟨.g, .c, .d, .a, .b, 9, 9, 0x5a827999⟩,
  ⟨.g, .b, .c, .d, .a, 13, 13, 0x5a827999⟩,
  ⟨.g, .a, .b, .c, .d, 2, 3, 0x5a827999⟩,
  ⟨.g, .d, .a, .b, .c, 6, 5, 0x5a827999⟩,
  ⟨.g, .c, .d, .a, .b, 10, 9, 0x5a827999⟩,
  ⟨.g, .b, .c, .d, .a, 14, 13, 0x5a827999⟩,
  ⟨.g, .a, .b, .c, .d, 3, 3, 0x5a827999⟩,
  ⟨.g, .d, .a, .b, .c, 7, 5, 0x5a827999⟩,
  ⟨.g, .c, .d, .a, .b, 11, 9, 0x5a827999⟩,
  ⟨.g, .b, .c, .d, .a, 15, 13, 0x5a827999⟩]

/-- Rows 32 to 47 of the table of 40_compression R79, copied from it. -/
def tableRound3 : List ScheduleRow := [
  ⟨.h, .a, .b, .c, .d, 0, 3, 0x6ed9eba1⟩,
  ⟨.h, .d, .a, .b, .c, 8, 9, 0x6ed9eba1⟩,
  ⟨.h, .c, .d, .a, .b, 4, 11, 0x6ed9eba1⟩,
  ⟨.h, .b, .c, .d, .a, 12, 15, 0x6ed9eba1⟩,
  ⟨.h, .a, .b, .c, .d, 2, 3, 0x6ed9eba1⟩,
  ⟨.h, .d, .a, .b, .c, 10, 9, 0x6ed9eba1⟩,
  ⟨.h, .c, .d, .a, .b, 6, 11, 0x6ed9eba1⟩,
  ⟨.h, .b, .c, .d, .a, 14, 15, 0x6ed9eba1⟩,
  ⟨.h, .a, .b, .c, .d, 1, 3, 0x6ed9eba1⟩,
  ⟨.h, .d, .a, .b, .c, 9, 9, 0x6ed9eba1⟩,
  ⟨.h, .c, .d, .a, .b, 5, 11, 0x6ed9eba1⟩,
  ⟨.h, .b, .c, .d, .a, 13, 15, 0x6ed9eba1⟩,
  ⟨.h, .a, .b, .c, .d, 3, 3, 0x6ed9eba1⟩,
  ⟨.h, .d, .a, .b, .c, 11, 9, 0x6ed9eba1⟩,
  ⟨.h, .c, .d, .a, .b, 7, 11, 0x6ed9eba1⟩,
  ⟨.h, .b, .c, .d, .a, 15, 15, 0x6ed9eba1⟩]

end Sys2Proof.Machine

open Sys2Proof Sys2Proof.Machine

/-! ## Reset and STATUS -/

/-- 10_state section 7, 70_reset_and_hazards section 1: what reset leaves in the elements the spec gives a value, and
that reset, applied in any state, presents the new command stream from offset 0. A to D, BUF and L, whose reset values
the spec leaves open (log entry 2), are not stated. -/
def Obligations.ResetLeavesSpecValues : Prop :=
  (State.reset.lc = .uninit ∧ State.reset.fault = false ∧ State.reset.cause = .none ∧ State.reset.cp = 0 ∧
    State.reset.rout = [] ∧ State.reset.status = 0x00000000) ∧
  ∀ (s : State) (cin : List Byte),
    (s.hostReset cin).lc = .uninit ∧ (s.hostReset cin).fault = false ∧ (s.hostReset cin).cause = .none ∧
      (s.hostReset cin).cp = 0 ∧ (s.hostReset cin).rout = [] ∧ (s.hostReset cin).status = 0x00000000 ∧
      (s.hostReset cin).pending = cin

/-- 10_state R29: the fields of STATUS in every state, its reset value, that a read changes nothing, that it is derived
from LC, FAULT and CAUSE alone, and that the host's only way to change it is reset. -/
def Obligations.StatusRegisterLayout : Prop :=
  (∀ s : State,
    s.status.extractLsb' 0 2 = (match s.lc with | .uninit => 0 | .active => 1 | .spent => 2) ∧
    s.status.extractLsb' 0 2 ≠ 3 ∧
    s.status.getLsbD 2 = s.fault ∧
    s.status.extractLsb' 3 5 = 0 ∧
    s.status.extractLsb' 8 8 =
      (match s.cause with
        | .none => 0x00 | .illegalOpcode => 0x01 | .reservedField => 0x02 | .notInitialised => 0x03
        | .accumulatorSpent => 0x04) ∧
    s.status.extractLsb' 16 16 = 0 ∧
    s.readStatus = (s.status, s)) ∧
  (∀ s t : State, s.lc = t.lc → s.fault = t.fault → s.cause = t.cause → s.status = t.status) ∧
  (∀ (s : State) (act : HostAction), (∃ cin, act = .reset cin) ∨ (applyHost act s).status = s.status) ∧
  State.reset.status = 0x00000000

/-! ## Encoding -/

/-- 30_encoding sections 1 to 3: the bytes of every command the encoding can spell decode to that command, with every
operand, and leave the bytes after it. -/
def Obligations.DecodeOfEncode : Prop :=
  ∀ (i : Instr) (rest : List Byte), i.WellFormed → decode (encode i ++ rest) = .command i rest

/-- 30_encoding sections 1 to 3: whatever decodes to a command is that command's encoding and the rest, and the command
is one the encoding can spell: no two byte forms stand for one command. -/
def Obligations.EncodeOfDecode : Prop :=
  ∀ (bs : List Byte) (i : Instr) (rest : List Byte), decode bs = .command i rest →
    i.WellFormed ∧ bs = encode i ++ rest ∧ (encode i).length = i.size

/-- 30_encoding section 4: exactly the command words with OPC 0x00 or at least 0x07 are illegal, and exactly those with
another OPC than UPDATE's and a non-zero ARG have a reserved field. -/
def Obligations.RefusedCommandWords : Prop :=
  ∀ (b0 b1 b2 b3 : Byte) (rest : List Byte),
    (decode (b0 :: b1 :: b2 :: b3 :: rest) = .illegalOpcode ↔ b0 = 0 ∨ 7 ≤ b0.toNat) ∧
    (decode (b0 :: b1 :: b2 :: b3 :: rest) = .reservedField ↔
      (b0 = 1 ∨ b0 = 3 ∨ b0 = 4 ∨ b0 = 5 ∨ b0 = 6) ∧ ¬(b1 = 0 ∧ b2 = 0 ∧ b3 = 0))

/-- 95_test_vectors section 2.6 and 30_encoding section 6: command words of all six commands and of the two encoding
errors, written out. -/
def Obligations.EncodingVectors : Prop :=
  decode [0x01, 0x00, 0x00, 0x00] = .command .init [] ∧
  decode [0x02, 0x03, 0x00, 0x00, 0x61, 0x62, 0x63] = .command (.update [0x61, 0x62, 0x63]) [] ∧
  decode [0x03, 0x00, 0x00, 0x00] = .command .finalize [] ∧
  decode ([0x04, 0x00, 0x00, 0x00, 0x01, 0x23, 0x45, 0x67, 0x89, 0xab, 0xcd, 0xef, 0xfe, 0xdc, 0xba, 0x98,
      0x76, 0x54, 0x32, 0x10] ++ List.replicate 64 0) =
    .command (.compress ⟨0x67452301, 0xefcdab89, 0x98badcfe, 0x10325476⟩ (Vector.replicate 64 0)) [] ∧
  decode [0x05, 0x00, 0x00, 0x00, 0x31, 0xd6, 0xcf, 0xe0, 0xd1, 0x6a, 0xe9, 0x31, 0xb7, 0x3c, 0x59, 0xd7,
      0xe0, 0xc0, 0x89, 0xc0] = .command (.reverse ⟨0xe0cfd631, 0x31e96ad1, 0xd7593cb7, 0xc089c0e0⟩) [] ∧
  decode [0x06, 0x00, 0x00, 0x00, 0x30, 0xb3, 0x8a, 0x79, 0x45, 0x45, 0x8c, 0xc0, 0xb9, 0x5f, 0x9e, 0x3e,
      0x6a, 0x6c, 0x57, 0xb0] = .command (.unreverse ⟨0x798ab330, 0xc08c4545, 0x3e9e5fb9, 0xb0576c6a⟩) [] ∧
  decode [0x00, 0x00, 0x00, 0x00] = .illegalOpcode ∧
  decode [0x07, 0x00, 0x00, 0x00] = .illegalOpcode ∧
  decode [0xff, 0x00, 0x00, 0x00] = .illegalOpcode ∧
  decode [0x01, 0x01, 0x00, 0x00] = .reservedField ∧
  decode [0x05, 0x00, 0x00, 0x80] = .reservedField

/-! ## The step, faults and waiting -/

/-- 20_memory sections 3 and 5: where the bytes at CP decode to a command, the step is that command's execution, and
nothing else is added around it. -/
def Obligations.StepRunsDecodedCommand : Prop :=
  ∀ (s : State) (i : Instr) (rest : List Byte), decode s.pending = .command i rest → step s = exec i s

/-- 30_encoding R64, 60_exceptions R122, R123: what the engine does with a command word, the checks in their order, the
first that applies deciding, on the word and LC alone; a legal command waits for its operand bytes and then runs. -/
def Obligations.CommandWordChecks : Prop :=
  ∀ (s : State) (b0 b1 b2 b3 : Byte) (rest : List Byte), s.fault = false → s.pending = b0 :: b1 :: b2 :: b3 :: rest →
    let arg := b1.toNat + 256 * b2.toNat + 65536 * b3.toNat
    let oplen := if b0 = 2 then arg else if b0 = 4 then 80 else if b0 = 5 ∨ b0 = 6 then 16 else 0
    if b0 = 0 ∨ 7 ≤ b0.toNat then step s = .next { s with fault := true, cause := .illegalOpcode }
    else if b0 ≠ 2 ∧ arg ≠ 0 then step s = .next { s with fault := true, cause := .reservedField }
    else if (b0 = 2 ∨ b0 = 3) ∧ s.lc = .uninit then step s = .next { s with fault := true, cause := .notInitialised }
    else if (b0 = 2 ∨ b0 = 3) ∧ s.lc = .spent then step s = .next { s with fault := true, cause := .accumulatorSpent }
    else if rest.length < oplen then step s = .fault .incomplete
    else ∃ i, decode s.pending = .command i (rest.drop oplen) ∧ i.opcode.code = b0 ∧ step s = exec i s

/-- 60_exceptions section 1: a command that is not halted and that the lifecycle allows completes, without a fault. -/
def Obligations.LegalCommandsComplete : Prop :=
  ∀ (i : Instr) (s : State), s.fault = false → (i.opcode = .update ∨ i.opcode = .finalize → s.lc = .active) →
    ∃ t, exec i s = .next t ∧ t.fault = false ∧ t.cause = s.cause ∧ t.cp = s.cp + i.size

/-- 60_exceptions R124, R125: UPDATE and FINALIZE outside ACTIVE take their fault and have none of their effect. -/
def Obligations.LifecycleFaults : Prop :=
  ∀ (i : Instr) (s : State), s.fault = false → i.opcode = .update ∨ i.opcode = .finalize →
    (s.lc = .uninit → exec i s = .next { s with fault := true, cause := .notInitialised }) ∧
    (s.lc = .spent → exec i s = .next { s with fault := true, cause := .accumulatorSpent })

/-- 60_exceptions R127: a step that ends with FAULT = 1 wrote FAULT and CAUSE and nothing else, and the cause is that of
the command word at CP. -/
def Obligations.FaultEntryIsPrecise : Prop :=
  (∀ s t : State, step s = .next t → t.fault = true →
    s.fault = false ∧ t.cause ≠ .none ∧ t = { s with fault := true, cause := t.cause } ∧
    ∃ b0 b1 b2 b3 rest, s.pending = b0 :: b1 :: b2 :: b3 :: rest ∧
      commandWordFault (le32 b0 b1 b2 b3) s.lc = some t.cause) ∧
  (∀ (i : Instr) (s t : State), exec i s = .next t → t.fault = true →
    t.cause ≠ .none ∧ t = { s with fault := true, cause := t.cause })

/-- 60_exceptions R128, R129: a halted engine takes no command, whatever CIN holds; its run is a faulted one; no host
action but reset leaves the halted state or changes CAUSE; reset clears both and starts from UNINIT. -/
def Obligations.HaltedUntilReset : Prop :=
  ∀ s : State, s.fault = true →
    step s = .fault (.halted s.cause) ∧
    (∀ i, exec i s = .fault (.halted s.cause)) ∧
    (∀ bs, step (s.supply bs) = .fault (.halted s.cause)) ∧
    s.runEnd = some .faulted ∧
    (∀ act : HostAction,
      ((applyHost act s).fault = true ∧ (applyHost act s).cause = s.cause ∧ (applyHost act s).status = s.status) ∨
      ∃ cin, act = .reset cin ∧ (applyHost act s).fault = false ∧ (applyHost act s).cause = .none ∧
        (applyHost act s).lc = .uninit)

/-- 20_memory section 3, 70_reset_and_hazards section 3: while bytes of the next command are missing the engine takes no
step, and the command runs once the host has supplied them. -/
def Obligations.MissingBytesAreWaitedFor : Prop :=
  ∀ s : State, s.fault = false → s.needsBytes = true →
    step s = .fault (if s.pending = [] then .streamEnd else .incomplete) ∧
    ∀ (bs : List Byte) (i : Instr) (rest : List Byte), s.cp ≤ s.cin.length →
      decode (s.pending ++ bs) = .command i rest → step (s.supply bs) = exec i (s.supply bs)

/-- 10_state R30, R31: a step never writes CIN; a fault leaves CP and ROUT; a completed command adds 4 + OPLEN to CP and
appends exactly its 16 or 0 result bytes to ROUT; both start at 0 and empty. -/
def Obligations.CommandPointerAndResultStream : Prop :=
  (State.reset.cp = 0 ∧ State.reset.rout = []) ∧
  ∀ s t : State, step s = .next t →
    t.cin = s.cin ∧
    ((t.fault = true ∧ t.cp = s.cp ∧ t.rout = s.rout) ∨
      ∃ i rest out, decode s.pending = .command i rest ∧ t.fault = false ∧
        t.cp = s.cp + (4 + i.operandBytes.length) ∧ t.rout = s.rout ++ out ∧
        out.length = (match i with
          | .init => 0 | .update _ => 0 | .finalize => 16 | .compress _ _ => 16 | .reverse _ => 16
          | .unreverse _ => 16))

/-- 10_state R27: the lifecycle's encodings, its value after reset, and how each command that completes moves it; a fault
does not. -/
def Obligations.LifecycleMoves : Prop :=
  State.reset.lc = .uninit ∧ Lifecycle.uninit.code = 0 ∧ Lifecycle.active.code = 1 ∧ Lifecycle.spent.code = 2 ∧
  (∀ lc : Lifecycle, lc.code ≠ 3) ∧
  ∀ (i : Instr) (s t : State), exec i s = .next t →
    (t.fault = true ∧ t.lc = s.lc) ∨
    (t.fault = false ∧
      (match i with
        | .init => t.lc = .active
        | .finalize => s.lc = .active ∧ t.lc = .spent
        | .update _ => t.lc = s.lc
        | .compress _ _ => t.lc = s.lc
        | .reverse _ => t.lc = s.lc
        | .unreverse _ => t.lc = s.lc))

/-! ## The accumulator -/

/-- 41_accumulator section 1: INIT completes in every lifecycle; A to D, L, LC and CP are written and nothing else; a
second INIT changes nothing but CP. -/
def Obligations.InitEffect : Prop :=
  ∀ s : State, s.fault = false →
    exec .init s = .next { s with
      chain := ⟨0x67452301, 0xefcdab89, 0x98badcfe, 0x10325476⟩, len := 0, lc := .active, cp := s.cp + 4 } ∧
    ∀ t u, exec .init s = .next t → exec .init t = .next u → u = { t with cp := t.cp + 4 }

/-- 41_accumulator section 2, 20_memory section 3: UPDATE completes in ACTIVE; the valid bytes and the data are
compressed block by block, one compression per complete 64 bytes; the rest stays as the valid bytes of BUF; L counts the
bits; LC, ROUT, FAULT, CAUSE and CIN keep their values. -/
def Obligations.UpdateEffect : Prop :=
  ∀ (data : List Byte) (s : State), s.fault = false → s.lc = .active →
    let all := s.buf.toList.take s.occ ++ data
    ∃ t, exec (.update data) s = .next t ∧
      t.chain = compressAll s.chain (blocksOf all) ∧
      (blocksOf all).length = (s.occ + data.length) / 64 ∧
      t.occ = (s.occ + data.length) % 64 ∧
      t.buf.toList.take t.occ = all.drop (64 * ((s.occ + data.length) / 64)) ∧
      t.len = s.len + BitVec.ofNat 64 (8 * data.length) ∧
      t.cp = s.cp + (4 + data.length) ∧
      t = { s with chain := t.chain, buf := t.buf, len := t.len, cp := t.cp }

/-- 41_accumulator R92: the bit counter grows by exactly 8n modulo 2^64, no overflow faults, and OCC stays right across
the wrap; the wrap of the vector V24 is one case. -/
def Obligations.UpdateCountsBits : Prop :=
  (∀ (data : List Byte) (s : State), s.fault = false → s.lc = .active →
    ∃ t, exec (.update data) s = .next t ∧ t.fault = false ∧
      t.len.toNat = (s.len.toNat + 8 * data.length) % 2 ^ 64 ∧
      t.occ = (s.occ + data.length) % 64) ∧
  ∀ s : State, s.fault = false → s.lc = .active → s.len = 0xfffffffffffffff8 →
    ∃ t, exec (.update [0x00]) s = .next t ∧ t.len = 0 ∧ t.occ = 0

/-- 41_accumulator section 2, the sentence "An UPDATE with LEN = 0 writes no state but CP, which advances by 4" (R94, which
the spec marks as derived from its own rules): it holds where an UPDATE is legal, and elsewhere it faults like any
other. -/
def Obligations.EmptyUpdate : Prop :=
  ∀ s : State, s.fault = false →
    (s.lc = .active → exec (.update []) s = .next { s with cp := s.cp + 4 }) ∧
    (s.lc = .uninit → exec (.update []) s = .next { s with fault := true, cause := .notInitialised }) ∧
    (s.lc = .spent → exec (.update []) s = .next { s with fault := true, cause := .accumulatorSpent })

/-- 41_accumulator section 2, the sentence "`UPDATE s; UPDATE t` leaves the same A, B, C, D, L and valid BUF bytes as
`UPDATE s ‖ t`" and its induction to every partition of a message (R93, which the spec marks as derived). -/
def Obligations.ChunkingInvariance : Prop :=
  (∀ (p q : List Byte) (s : State), p.length + q.length ≤ 16777215 → s.fault = false → s.lc = .active →
    ∃ t u, execAll [.update p, .update q] s = .next t ∧ exec (.update (p ++ q)) s = .next u ∧
      t.chain = u.chain ∧ t.len = u.len ∧ t.buf.toList.take t.occ = u.buf.toList.take u.occ) ∧
  ∀ (chunks chunks' : List (List Byte)) (s : State), chunks.flatten = chunks'.flatten → s.fault = false →
    ∃ t u, execAll (.init :: (chunks.map .update ++ [.finalize])) s = .next t ∧
      execAll (.init :: (chunks'.map .update ++ [.finalize])) s = .next u ∧ t.rout = u.rout

/-- 41_accumulator section 3: FINALIZE completes in ACTIVE: exactly one compression of the valid bytes, 0x80, zeros and
bytes64(L) where OCC <= 55, exactly two where OCC >= 56, the second of 56 zeros and bytes64(L) (R95, R96, and R97, which
the spec marks as derived); the digest bytes go to ROUT, LC to SPENT, CP past the word, and FAULT, CAUSE and CIN stay.
What A to D, BUF and L hold afterwards the spec leaves open (10_state R36, log entry 3), and nothing is stated of it. -/
def Obligations.FinalizeCompressions : Prop :=
  ∀ s : State, s.fault = false → s.lc = .active →
    ∃ t d, exec .finalize s = .next t ∧
      d = (if s.occ ≤ 55 then
          compressBlock s.chain (blockOfBytes (s.buf.toList.take s.occ ++ [0x80] ++ List.replicate (55 - s.occ) 0 ++
            bytes64 s.len))
        else
          compressBlock
            (compressBlock s.chain (blockOfBytes (s.buf.toList.take s.occ ++ [0x80] ++ List.replicate (63 - s.occ) 0)))
            (blockOfBytes (List.replicate 56 0 ++ bytes64 s.len))) ∧
      t.rout = s.rout ++ (bytes32 d.a ++ bytes32 d.b ++ bytes32 d.c ++ bytes32 d.d) ∧
      t.lc = .spent ∧ t.cp = s.cp + 4 ∧ t.fault = false ∧ t.cause = s.cause ∧ t.cin = s.cin

/-- 41_accumulator section 4, the sentence "The MD4 digest of a byte string M, md4(M), is the 16 bytes FINALIZE appends to
ROUT" and its equivalent as a chained compression of the padded message (R101, R102, which the spec marks as derived):
whatever UPDATEs carry the message, the digest is that of the whole message, of (|M| + 8) / 64 + 1 padded blocks, and z is
the least number with (|M| + 1 + z) mod 64 = 56. -/
def Obligations.DigestOfMessage : Prop :=
  (∀ (chunks : List (List Byte)) (s : State), s.fault = false →
    ∃ t, execAll (.init :: (chunks.map .update ++ [.finalize])) s = .next t ∧ t.rout = s.rout ++ md4 chunks.flatten ∧
      t.fault = false) ∧
  ∀ m : List Byte,
    (md4 m).length = 16 ∧
    (m.length + 1 + padZeros m.length) % 64 = 56 ∧ (∀ z, (m.length + 1 + z) % 64 = 56 → padZeros m.length ≤ z) ∧
    (paddedMessage m).length = 64 * (blocksOf (paddedMessage m)).length ∧
    (blocksOf (paddedMessage m)).length = (m.length + 8) / 64 + 1

/-- 10_state section 8 (R35, which the spec marks as derived): INIT makes the accumulator hold the empty message, UPDATE
appends its data to the message held, and FINALIZE emits the digest of the message held. -/
def Obligations.CommandsOnTheHeldMessage : Prop :=
  (∀ s : State, s.fault = false → ∃ t, exec .init s = .next t ∧ t.lc = .active ∧ t.Holds []) ∧
  (∀ (m data : List Byte) (s : State), s.fault = false → s.lc = .active → s.Holds m →
    ∃ t, exec (.update data) s = .next t ∧ t.lc = .active ∧ t.Holds (m ++ data)) ∧
  (∀ (m : List Byte) (s : State), s.fault = false → s.lc = .active → s.Holds m →
    ∃ t, exec .finalize s = .next t ∧ t.rout = s.rout ++ md4 m)

/-- 10_state section 8, the sentence "A, B, C, D hold IV compressed with every complete 64-byte block of the message taken
since INIT" and the two after it (R35, which the spec marks as derived): every step from a state whose accumulator, if
ACTIVE, holds a message leads to such a state. A fault keeps the very message; INIT starts the empty one, UPDATE appends
to it, FINALIZE emits its digest, and COMPRESS, REVERSE and UNREVERSE keep it (42_reversal section 3,
70_reset_and_hazards section 2). -/
def Obligations.StepKeepsMessageInvariant : Prop :=
  (∀ s t : State, s.MessageInv → step s = .next t → t.MessageInv) ∧
  ∀ (s t : State) (m : List Byte), s.lc = .active → s.Holds m → step s = .next t →
    (t.fault = true → t.lc = .active ∧ t.Holds m) ∧
    ∀ (i : Instr) (rest : List Byte), decode s.pending = .command i rest →
      match i with
      | .init => t.lc = .active ∧ t.Holds []
      | .update data => t.lc = .active ∧ t.Holds (m ++ data)
      | .finalize => t.lc = .spent ∧ t.rout = s.rout ++ md4 m
      | .compress _ _ => t.lc = .active ∧ t.Holds m
      | .reverse _ => t.lc = .active ∧ t.Holds m
      | .unreverse _ => t.lc = .active ∧ t.Holds m

/-- 10_state sections 7 and 8: after reset, with any command stream, no message is claimed (LC is UNINIT), so the message
invariant holds, and the other invariant too. That L is a multiple of 8 there rests on the model's choice of 0 for L at
reset, log entry 2. -/
def Obligations.ResetMeetsInvariants : Prop :=
  ∀ (s : State) (cin : List Byte), (s.hostReset cin).MessageInv ∧ (s.hostReset cin).Wf ∧ State.reset.Wf

/-- 10_state sections 3 to 5 and 60_exceptions section 4: every step keeps: FAULT is 1 exactly where CAUSE is not 0x00,
CP stays inside CIN, ROUT holds whole 16-byte results, L is a multiple of 8 ("L is always a multiple of 8", R25, which
the spec marks as derived; in SPENT, where L holds a free value, it is the one limit the model puts on that value, log
entry 3). -/
def Obligations.StepKeepsStateInvariant : Prop :=
  ∀ s t : State, s.Wf → step s = .next t → t.Wf

/-- 10_state section 8, 70_reset_and_hazards section 1: both invariants hold in every state that reset, steps and host
actions reach. Of L at reset and in SPENT it rests on log entries 2 and 3. -/
def Obligations.ReachableStatesMeetInvariants : Prop :=
  ∀ s : State, s.Reachable → s.Wf ∧ s.MessageInv

/-- 41_accumulator section 3, the sentence "So the undefined BUF bytes of 10_state.md rule R26 can never affect a result"
(R100, which the spec marks as derived), with 10_state sections 7 and 8: bytes of BUF at or above OCC, and outside ACTIVE
all of A to D, BUF and L, never affect a step: two states that agree on the rest stop alike, or step to states that agree
again, with the same ROUT, STATUS and CP. -/
def Obligations.UndefinedValuesNeverMatter : Prop :=
  ∀ s s' : State, s.Agrees s' →
    (∀ t, step s = .next t → ∃ t', step s' = .next t' ∧ t.Agrees t' ∧ t.status = t'.status) ∧
    (∀ r, step s = .fault r → step s' = .fault r)

/-! ## The compression engine -/

/-- 40_compression R79: the model's schedule is the table, row by row. -/
def Obligations.ScheduleMatchesTable : Prop :=
  schedule = tableRound1 ++ tableRound2 ++ tableRound3

/-- 40_compression R81 with R75 and R80, and 20_memory R42: the words X[i] are assembled from the block's bytes, least
significant byte first; the working registers are seeded from the state; each of the 48 steps applies the step formula
to them with its row of the table of R79, whose operands are other registers than its target; and each register is then
added to its saved value. -/
def Obligations.CompressionFollowsSteps : Prop :=
  ∀ (st : Chain) (blk : Block),
    (∀ i : Fin 16,
      let b0 := blk[4 * i.val]'(by omega)
      let b1 := blk[4 * i.val + 1]'(by omega)
      let b2 := blk[4 * i.val + 2]'(by omega)
      let b3 := blk[4 * i.val + 3]'(by omega)
      blockWord blk i = le32 b0 b1 b2 b3 ∧
      (blockWord blk i).toNat = b0.toNat + 256 * b1.toNat + 65536 * b2.toNat + 16777216 * b3.toNat) ∧
    workingAfter st blk 0 = st ∧
    (∀ j, j < 48 →
      let r := scheduleRow j
      let w := workingAfter st blk j
      (tableRound1 ++ tableRound2 ++ tableRound3)[j]? = some r ∧
      r.u ≠ r.t ∧ r.v ≠ r.t ∧ r.w ≠ r.t ∧
      workingAfter st blk (j + 1) =
        writeReg w r.t (rotl (readReg w r.t + r.f.apply (readReg w r.u) (readReg w r.v) (readReg w r.w) +
          blockWord blk r.k + r.const) r.s)) ∧
    compressBlock st blk =
      ⟨st.a + (workingAfter st blk 48).a, st.b + (workingAfter st blk 48).b, st.c + (workingAfter st blk 48).c,
        st.d + (workingAfter st blk 48).d⟩

/-- 40_compression section 2 (R71 to R73): the three mixing functions, F and G in their other forms too, each bit by bit
(H's is the parity), the examples the spec marks as derived, and which of the three a step named F, G or H applies. -/
def Obligations.MixingFunctions : Prop :=
  (∀ x y z : Word,
    mixF x y z = z ^^^ (x &&& (y ^^^ z)) ∧ mixF x y z = (x &&& y) ||| (~~~x &&& z) ∧
    (∀ i, i < 32 → (mixF x y z).getLsbD i = if x.getLsbD i then y.getLsbD i else z.getLsbD i) ∧
    mixG x y z = (x &&& (y ||| z)) ||| (y &&& z) ∧
    (∀ i, i < 32 → (mixG x y z).getLsbD i =
      decide (2 ≤ (x.getLsbD i).toNat + (y.getLsbD i).toNat + (z.getLsbD i).toNat)) ∧
    mixH x y z = x ^^^ y ^^^ z ∧
    (∀ i, i < 32 → (mixH x y z).getLsbD i =
      decide (((x.getLsbD i).toNat + (y.getLsbD i).toNat + (z.getLsbD i).toNat) % 2 = 1)) ∧
    Mix.apply .f x y z = mixF x y z ∧ Mix.apply .g x y z = mixG x y z ∧ Mix.apply .h x y z = mixH x y z) ∧
  mixF 0xffffffff 0x12345678 0x9abcdef0 = 0x12345678 ∧ mixF 0x00000000 0x12345678 0x9abcdef0 = 0x9abcdef0 ∧
  mixG 0xffffffff 0x12345678 0x9abcdef0 = 0x9abcdef8 ∧ mixH 0xffffffff 0x12345678 0x9abcdef0 = 0x77777777

/-- 00_scope section 4 (R12): the rotations for amounts 1 to 31 by their formula, that they undo each other, and that the
schedule rotates by 3, 5, 7, 9, 11, 13, 15 and 19 only (which the spec marks as derived). -/
def Obligations.Rotations : Prop :=
  (∀ (x : Word) (n : Nat), 1 ≤ n → n ≤ 31 →
    rotl x n = (x <<< n) ||| (x >>> (32 - n)) ∧ rotl x n = x.rotateLeft n ∧ rotr x n = rotl x (32 - n) ∧
    rotr (rotl x n) n = x) ∧
  ∀ j, j < 48 → (scheduleRow j).s ∈ [3, 5, 7, 9, 11, 13, 15, 19]

/-- 40_compression section 5: COMPRESS completes in every lifecycle; the compression's 16 bytes go to ROUT and CP passes
the command's 84 bytes; nothing else changes. -/
def Obligations.CompressEffect : Prop :=
  ∀ (st : Chain) (blk : Block) (s : State), s.fault = false →
    exec (.compress st blk) s = .next { s with
      rout := s.rout ++ (bytes32 (compressBlock st blk).a ++ bytes32 (compressBlock st blk).b ++
        bytes32 (compressBlock st blk).c ++ bytes32 (compressBlock st blk).d),
      cp := s.cp + 84 }

/-! ## The reversal -/

/-- 42_reversal section 1: REVERSE completes in every lifecycle; the five steps on the operand give the 16 result bytes;
CP passes 20 bytes; nothing else changes. -/
def Obligations.ReverseEffect : Prop :=
  ∀ (st : Chain) (s : State), s.fault = false →
    let a := st.a - 0x67452301
    let b1 := st.b - 0xefcdab89
    let c := st.c - 0x98badcfe
    let d := st.d - 0x10325476
    let b2 := rotr b1 15
    let b3 := b2 - (0x6ed9eba1 + (c ^^^ d ^^^ a))
    let b4 := rotr b3 15
    let b5 := b4 - 0x6ed9eba1
    exec (.reverse st) s = .next { s with
      rout := s.rout ++ (bytes32 a ++ bytes32 b5 ++ bytes32 c ++ bytes32 d), cp := s.cp + 20 }

/-- 42_reversal section 2: UNREVERSE completes in every lifecycle; the inverse steps give the 16 result bytes; CP passes
20 bytes; nothing else changes. -/
def Obligations.UnreverseEffect : Prop :=
  ∀ (st : Chain) (s : State), s.fault = false →
    let b1 := st.b + 0x6ed9eba1
    let b2 := rotl b1 15
    let b3 := b2 + (0x6ed9eba1 + (st.c ^^^ st.d ^^^ st.a))
    let b4 := rotl b3 15
    exec (.unreverse st) s = .next { s with
      rout := s.rout ++ (bytes32 (st.a + 0x67452301) ++ bytes32 (b4 + 0xefcdab89) ++ bytes32 (st.c + 0x98badcfe) ++
        bytes32 (st.d + 0x10325476)),
      cp := s.cp + 20 }

/-- 42_reversal section 3, the sentence "For every state S, unreverse(reverse(S)) = S and reverse(unreverse(S)) = S" (R112,
which the spec marks as derived), also of the commands, the second one's operand being the first one's result bytes. -/
def Obligations.ReversalRoundTrip : Prop :=
  (∀ st : Chain, unreverseChain (reverseChain st) = st ∧ reverseChain (unreverseChain st) = st) ∧
  ∀ (st : Chain) (s : State), s.fault = false →
    (∃ t u, exec (.reverse st) s = .next t ∧
      exec (.unreverse (chainOfBytes (t.rout.drop s.rout.length))) t = .next u ∧ u.rout = t.rout ++ chainBytes st) ∧
    (∃ t u, exec (.unreverse st) s = .next t ∧
      exec (.reverse (chainOfBytes (t.rout.drop s.rout.length))) t = .next u ∧ u.rout = t.rout ++ chainBytes st)

/-- 42_reversal section 3 (R114, which the spec marks as derived): the A, C and D outputs are the inputs less, or plus, the
words of IV, whatever B is. -/
def Obligations.ReversalOtherWords : Prop :=
  ∀ st : Chain,
    (reverseChain st).a = st.a - 0x67452301 ∧ (reverseChain st).c = st.c - 0x98badcfe ∧
    (reverseChain st).d = st.d - 0x10325476 ∧
    (unreverseChain st).a = st.a + 0x67452301 ∧ (unreverseChain st).c = st.c + 0x98badcfe ∧
    (unreverseChain st).d = st.d + 0x10325476

/-- 42_reversal section 3 (R113, which the spec marks as derived): what REVERSE finds in the digest of a one-block message:
the last A, C and D working registers, and in B the sum that step 43 rotates, less K_3; and the word X[15] of such a block
is 0. -/
def Obligations.ReverseOfOneBlockDigest : Prop :=
  (∀ blk : Block, blockWord blk 15 = 0 →
    let after := fun j => workingAfter iv blk (j + 1)
    let r := reverseChain (compressBlock iv blk)
    r.a = (after 47).a ∧ r.c = (after 47).c ∧ r.d = (after 47).d ∧
    r.b = (after 42).b + mixH (after 42).c (after 42).d (after 42).a + blockWord blk 13 ∧
    (after 43).b = rotl (r.b + 0x6ed9eba1) 15) ∧
  ∀ m : List Byte, m.length ≤ 55 →
    ∃ blk, blocksOf (paddedMessage m) = [blk] ∧ blockWord blk 15 = 0 ∧ md4 m = chainBytes (compressBlock iv blk)

/-! ## The end of a run, instances, the assembler -/

/-- 70_reset_and_hazards section 4: an engine whose CP is inside CIN takes no step exactly where its run has ended, and
the end is complete, faulted or incomplete as the rule says; no two of them hold together. -/
def Obligations.NoStepExactlyAtTheEnd : Prop :=
  ∀ s : State, s.cp ≤ s.cin.length →
    ((∃ r, step s = .fault r) ↔ s.runEnd ≠ none) ∧
    ((∃ t, step s = .next t) ↔ s.runEnd = none) ∧
    (s.runEnd = some .faulted ↔ s.fault = true) ∧
    (s.runEnd = some .complete ↔ s.fault = false ∧ s.cp = s.cin.length) ∧
    (s.runEnd = some .incomplete ↔ s.fault = false ∧ s.cp < s.cin.length ∧ step s = .fault .incomplete)

/-- 70_reset_and_hazards section 4: on a finite CIN every run ends, after at most one step for each 4 bytes left and one
more, and CIN is as the host wrote it. It holds of an engine whose ROUT never fills: the model has no ROUT capacity and
takes it that the host drains ROUT (70_reset_and_hazards R146, log entry 8, DEDUCED, unsafe for liveness); on an engine
with a bounded result queue, of which R150 says nothing, a full queue stalls the run and this claim fails. -/
def Obligations.EveryRunEnds : Prop :=
  ∀ s : State, s.cp ≤ s.cin.length →
    ∃ k t, k ≤ (s.cin.length - s.cp) / 4 + 1 ∧ Host.Core.run Sys2Proof.core k s = .next t ∧ t.runEnd ≠ none ∧
      t.cin = s.cin

/-- 60_exceptions section 8: a step of one instance is that instance's own step and leaves every other instance's state
alone. -/
def Obligations.InstancesShareNothing : Prop :=
  ∀ (k : Nat) (es es' : List State), stepInstance k es = some (.next es') →
    es'.length = es.length ∧ (∀ j, j ≠ k → es'[j]? = es[j]?) ∧
    ∃ s t, es[k]? = some s ∧ step s = .next t ∧ es'[k]? = some t

/-- 30_encoding section 6 (R68): a long UPDATE expands to chunks of 16777215 bytes and one with the rest, the message
unchanged, with the result of one update of all the bytes; HASH expands to INIT, the UPDATE or UPDATEs of the same bytes
and FINALIZE, commands the encoding can spell, and its result is the digest.
For a HASH of more than 16777215 bytes, R68 names one UPDATE of the same bytes, which no command word can spell: that it
expands as a long UPDATE does is the model's choice, log entry 10 (DESIGN CHOICE), and so is every clause on expandHash at
such a message. Whether the rest after an exact multiple of 16777215 bytes is a last full chunk or an empty one is the
model's choice too, log entry 16 (DESIGN CHOICE); the first clause holds for either. The one update of all the bytes is,
where the bytes are more than a command word can count, the term of log entry 12 (DESIGN CHOICE). -/
def Obligations.PseudoInstructionExpansions : Prop :=
  (∀ m : List Byte,
    ∃ chunks last, expandUpdate m = (chunks ++ [last]).map .update ∧ (∀ c ∈ chunks, c.length = 16777215) ∧
      last.length ≤ 16777215 ∧ (chunks ++ [last]).flatten = m ∧ (m.length ≤ 16777215 → chunks = [] ∧ last = m)) ∧
  (∀ (m : List Byte) (s : State), s.fault = false → s.lc = .active →
    ∃ t u, execAll (expandUpdate m) s = .next t ∧ exec (.update m) s = .next u ∧
      t.chain = u.chain ∧ t.len = u.len ∧ t.buf.toList.take t.occ = u.buf.toList.take u.occ ∧
      t.lc = u.lc ∧ t.rout = u.rout ∧ t.fault = false) ∧
  (∀ m : List Byte,
    expandHash m = [.init] ++ expandUpdate m ++ [.finalize] ∧
    (m.length ≤ 16777215 → expandHash m = [.init, .update m, .finalize])) ∧
  (∀ m : List Byte, ∀ i ∈ expandHash m, i.WellFormed) ∧
  ∀ (m : List Byte) (s : State), s.fault = false →
    ∃ t, execAll (expandHash m) s = .next t ∧ t.rout = s.rout ++ md4 m

/-- 30_encoding section 6 (R69, which the spec marks as derived): the encoding examples. Seven of the eight go from
assembler text to CIN bytes; the eighth, the UPDATE of 300 bytes, whose bytes R69 leaves unnamed, is stated of the encoder
on the command, for any 300 bytes, and not of assemble. -/
def Obligations.AssemblyExamples : Prop :=
  assemble "INIT".toList = some [0x01, 0x00, 0x00, 0x00] ∧
  assemble "UPDATE \"abc\"".toList = some [0x02, 0x03, 0x00, 0x00, 0x61, 0x62, 0x63] ∧
  assemble "UPDATE \"\"".toList = some [0x02, 0x00, 0x00, 0x00] ∧
  (∀ data : List Byte, data.length = 300 → encode (.update data) = [0x02, 0x2c, 0x01, 0x00] ++ data) ∧
  assemble "FINALIZE".toList = some [0x03, 0x00, 0x00, 0x00] ∧
  assemble "REVERSE digest:31d6cfe0d16ae931b73c59d7e0c089c0".toList =
    some [0x05, 0x00, 0x00, 0x00, 0x31, 0xd6, 0xcf, 0xe0, 0xd1, 0x6a, 0xe9, 0x31, 0xb7, 0x3c, 0x59, 0xd7, 0xe0, 0xc0,
      0x89, 0xc0] ∧
  assemble "REVERSE 0xe0cfd631, 0x31e96ad1, 0xd7593cb7, 0xc089c0e0".toList =
    some [0x05, 0x00, 0x00, 0x00, 0x31, 0xd6, 0xcf, 0xe0, 0xd1, 0x6a, 0xe9, 0x31, 0xb7, 0x3c, 0x59, 0xd7, 0xe0, 0xc0,
      0x89, 0xc0] ∧
  assemble ("COMPRESS 0x67452301, 0xefcdab89, 0x98badcfe, 0x10325476, hex:".toList ++ List.replicate 128 '0') =
    some ([0x04, 0x00, 0x00, 0x00, 0x01, 0x23, 0x45, 0x67, 0x89, 0xab, 0xcd, 0xef, 0xfe, 0xdc, 0xba, 0x98, 0x76, 0x54,
      0x32, 0x10] ++ List.replicate 64 0)
end

