-- ==== Sys2Proof/Laws/Operands.lean ====
section
/-! SUPPORT. What the byte-order operations give: lengths, and that LE32 and bytes32 undo each other. -/

namespace Sys2Proof.Machine

@[simp] theorem bytes32_length (w : Word) : (bytes32 w).length = 4 := rfl

@[simp] theorem bytes64_length (v : BitVec 64) : (bytes64 v).length = 8 := rfl

@[simp] theorem chainBytes_length (st : Chain) : (chainBytes st).length = 16 := rfl

/-- Bit `i` of an assembled word is a bit of its byte `i / 8` (00_scope R13). -/
theorem le32_getLsbD (b0 b1 b2 b3 : Byte) (i : Nat) :
    (le32 b0 b1 b2 b3).getLsbD i =
      if i < 8 then b0.getLsbD i
      else if i < 16 then b1.getLsbD (i - 8)
      else if i < 24 then b2.getLsbD (i - 16)
      else b3.getLsbD (i - 24) := by
  simp only [le32, BitVec.getLsbD_or, BitVec.getLsbD_shiftLeft, BitVec.getLsbD_setWidth]
  rcases Nat.lt_or_ge i 8 with h | h
  · simp [h, show i < 32 by omega, show i < 16 by omega, show i < 24 by omega]
  · rw [if_neg (by omega), BitVec.getLsbD_of_ge b0 i h]
    rcases Nat.lt_or_ge i 16 with h2 | h2
    · simp [h2, show i < 24 by omega, show i < 32 by omega, show ¬ i < 8 by omega, show i - 8 < 32 by omega]
    · rw [if_neg (by omega), BitVec.getLsbD_of_ge b1 (i - 8) (by omega)]
      rcases Nat.lt_or_ge i 24 with h3 | h3
      · simp [h3, show i < 32 by omega, show ¬ i < 16 by omega, show i - 16 < 32 by omega]
      · rw [if_neg (by omega), BitVec.getLsbD_of_ge b2 (i - 16) (by omega)]
        rcases Nat.lt_or_ge i 32 with h4 | h4
        · simp [show i < 32 by omega, show ¬ i < 24 by omega, show i - 24 < 32 by omega]
        · simp [show ¬ i < 32 by omega, BitVec.getLsbD_of_ge b3 (i - 24) (by omega)]

/-- The byte form of an assembled word is its bytes. -/
theorem bytes32_le32 (b0 b1 b2 b3 : Byte) : bytes32 (le32 b0 b1 b2 b3) = [b0, b1, b2, b3] := by
  simp only [bytes32, List.cons.injEq, and_true]
  refine ⟨?_, ?_, ?_, ?_⟩ <;> apply BitVec.eq_of_getLsbD_eq <;> intro i hi <;>
    simp only [BitVec.getLsbD_extractLsb', le32_getLsbD, hi, decide_true, Bool.true_and]
  · rw [if_pos (by omega)]; simp
  · rw [if_neg (by omega), if_pos (by omega)]; simp
  · rw [if_neg (by omega), if_neg (by omega), if_pos (by omega)]; simp
  · rw [if_neg (by omega), if_neg (by omega), if_neg (by omega)]; simp

/-- The word assembled from a word's byte form is the word. -/
theorem le32_bytes32 (w : Word) :
    le32 (w.extractLsb' 0 8) (w.extractLsb' 8 8) (w.extractLsb' 16 8) (w.extractLsb' 24 8) = w := by
  apply BitVec.eq_of_getLsbD_eq
  intro i hi
  rw [le32_getLsbD]
  simp only [BitVec.getLsbD_extractLsb']
  split
  · simp [*]
  split
  · rw [decide_eq_true (by omega), Bool.true_and]; congr 1; omega
  split
  · rw [decide_eq_true (by omega), Bool.true_and]; congr 1; omega
  · rw [decide_eq_true (by omega), Bool.true_and]; congr 1; omega

/-- The state operand decoded from the byte form of a state is the state. -/
theorem chainOfBytes_chainBytes (st : Chain) (rest : List Byte) : chainOfBytes (chainBytes st ++ rest) = st := by
  obtain ⟨a, b, c, d⟩ := st
  simp [chainOfBytes, operandWord, operandByte, chainBytes, bytes32, le32_bytes32]

/-- The block operand decoded from a block's bytes is the block. -/
theorem blockOfBytes_toList (blk : Block) (rest : List Byte) : blockOfBytes (blk.toList ++ rest) = blk := by
  ext i hi
  simp [blockOfBytes, operandByte, List.getD_eq_getElem?_getD, List.getElem?_append_left, hi]

/-- `LE32` as a number (00_scope R13). -/
theorem le32_toNat (b0 b1 b2 b3 : Byte) :
    (le32 b0 b1 b2 b3).toNat = b0.toNat + 256 * b1.toNat + 65536 * b2.toNat + 16777216 * b3.toNat := by
  have h0 := b0.isLt
  have h1 := b1.isLt
  have h2 := b2.isLt
  have h3 := b3.isLt
  have e : le32 b0 b1 b2 b3 =
      b0.setWidth 32 + b1.setWidth 32 <<< 8 + b2.setWidth 32 <<< 16 + b3.setWidth 32 <<< 24 := by
    rw [BitVec.add_eq_or_of_and_eq_zero (b0.setWidth 32), BitVec.add_eq_or_of_and_eq_zero (_ ||| _),
      BitVec.add_eq_or_of_and_eq_zero (_ ||| _), le32]
    all_goals
      ext i hi
      simp
      have := BitVec.getLsbD_of_ge b0 i
      have := BitVec.getLsbD_of_ge b1 (i - 8)
      have := BitVec.getLsbD_of_ge b2 (i - 16)
      have : 16 ≤ i → 8 ≤ i := by omega
      have : 24 ≤ i → 8 ≤ i := by omega
      have : 16 ≤ i → 8 ≤ i - 8 := by omega
      have : 24 ≤ i → 8 ≤ i - 8 := by omega
      have : 24 ≤ i → 8 ≤ i - 16 := by omega
      grind
  rw [e]
  simp [BitVec.toNat_add, BitVec.toNat_shiftLeft, Nat.shiftLeft_eq]
  omega

end Sys2Proof.Machine
end

