-- ==== Sys2Proof/Laws/Decode.lean ====
section
/-! SUPPORT. What the decoder's parts give: the fields of an encoded command word, the opcode map both ways, and one
inversion lemma of `decode`. -/

namespace Sys2Proof

open Sys2Proof.Machine

/-- The opcode map undoes the opcode's value (30_encoding R58). -/
theorem opcodeOf_code (op : Opcode) : opcodeOf op.code = some op := by cases op <;> rfl

/-- A value that maps to an opcode is that opcode's value (30_encoding R58). -/
theorem code_of_opcodeOf {v : Byte} {op : Opcode} (h : opcodeOf v = some op) : v = op.code := by
  unfold opcodeOf at h
  repeat' split at h
  all_goals first
    | (cases h; assumption)
    | cases h

/-- The bits of ARG over OPC (30_encoding R57). -/
theorem word_getLsbD (arg : BitVec 24) (opc : Byte) (i : Nat) :
    BitVec.getLsbD (arg ++ opc : Word) i = if i < 8 then opc.getLsbD i else arg.getLsbD (i - 8) :=
  BitVec.getLsbD_append

/-- The low byte of ARG over OPC is OPC (30_encoding R57). -/
theorem wordOpc_append (arg : BitVec 24) (opc : Byte) : wordOpc (arg ++ opc) = opc := by
  apply BitVec.eq_of_getLsbD_eq
  intro i hi
  rw [wordOpc, BitVec.getLsbD_extractLsb', word_getLsbD]
  simp [hi]

/-- The high 24 bits of ARG over OPC are ARG (30_encoding R57). -/
theorem wordArg_append (arg : BitVec 24) (opc : Byte) : wordArg (arg ++ opc) = arg := by
  apply BitVec.eq_of_getLsbD_eq
  intro i hi
  rw [wordArg, BitVec.getLsbD_extractLsb', word_getLsbD]
  simp [hi]

/-- A word is its ARG over its OPC (30_encoding R57). -/
theorem wordArg_append_wordOpc (w : Word) : wordArg w ++ wordOpc w = w := by
  apply BitVec.eq_of_getLsbD_eq
  intro i hi
  rw [word_getLsbD]
  simp only [wordArg, wordOpc, BitVec.getLsbD_extractLsb']
  split
  · simp [*]
  · rw [decide_eq_true (by omega), Bool.true_and]; congr 1; omega

/-- A legal command word: its OPC is the opcode's value, its ARG is 0 unless it is UPDATE's, and OPLEN follows
(30_encoding R56, R60). -/
theorem decodeWord_legal {w : Word} {op : Opcode} {n : Nat} (h : decodeWord w = .legal op n) :
    wordOpc w = op.code ∧ (op = .update ∨ wordArg w = 0) ∧ n = oplenOf op (wordArg w) := by
  unfold decodeWord at h
  split at h
  · cases h
  · rename_i op' hop
    split at h
    · cases h
    · rename_i hnot
      cases h
      exact ⟨code_of_opcodeOf hop, by simpa using Classical.or_iff_not_imp_left.mpr (by simpa using hnot), rfl⟩

/-- The command built from exactly OPLEN operand bytes has the opcode and the length 4 + OPLEN. -/
theorem buildCommand_size (op : Opcode) (arg : BitVec 24) (p : List Byte) (h : p.length = oplenOf op arg) :
    (buildCommand op p).size = 4 + oplenOf op arg ∧ (buildCommand op p).opcode = op := by
  cases op <;> simp_all [buildCommand, Instr.size, Instr.opcode, oplenOf]

/-- One inversion lemma of the decoder: where it answers a command, the bytes are a legal command word, the operand
bytes of that command, and the rest. -/
theorem decode_command {bs : List Byte} {i : Instr} {rest : List Byte} (h : decode bs = .command i rest) :
    ∃ b0 b1 b2 b3 p op n, bs = b0 :: b1 :: b2 :: b3 :: (p ++ rest) ∧ decodeWord (le32 b0 b1 b2 b3) = .legal op n ∧
      p.length = n ∧ i = buildCommand op p := by
  unfold decode at h
  split at h
  · rename_i b0 b1 b2 b3 tail
    split at h
    · cases h
    · cases h
    · rename_i op n hw
      split at h
      · cases h
      · cases h
        exact ⟨b0, b1, b2, b3, tail.take n, op, n, by simp, hw, by simp; omega, rfl⟩
  · cases h

/-- A decoded command's opcode, and its length against the bytes it was read from. -/
theorem decode_command_size {bs : List Byte} {i : Instr} {rest : List Byte} (h : decode bs = .command i rest) :
    bs.length = i.size + rest.length := by
  obtain ⟨b0, b1, b2, b3, p, op, n, rfl, hw, hp, rfl⟩ := decode_command h
  obtain ⟨-, -, hn⟩ := decodeWord_legal hw
  rw [(buildCommand_size op _ p (hp.trans hn)).1, ← hn, ← hp]
  simp; omega

end Sys2Proof
end

