-- ==== Sys2Proof/Laws/State.lean ====
section
/-! SUPPORT. One lemma per field per named update of the state, true by rfl, so that no proof unfolds a record update.
The rfl stands in brackets so that simp rewrites by the lemma instead of by definitional unfolding: the kernel then never
compares two whole states, whose fields may hold a compression. -/

namespace Sys2Proof.Machine

variable (s : State)

/-! `State.advance` -/

@[simp] theorem State.advance_chain (n : Nat) : (s.advance n).chain = s.chain := (rfl)
@[simp] theorem State.advance_buf (n : Nat) : (s.advance n).buf = s.buf := (rfl)
@[simp] theorem State.advance_len (n : Nat) : (s.advance n).len = s.len := (rfl)
@[simp] theorem State.advance_lc (n : Nat) : (s.advance n).lc = s.lc := (rfl)
@[simp] theorem State.advance_fault (n : Nat) : (s.advance n).fault = s.fault := (rfl)
@[simp] theorem State.advance_cause (n : Nat) : (s.advance n).cause = s.cause := (rfl)
@[simp] theorem State.advance_cp (n : Nat) : (s.advance n).cp = s.cp + n := (rfl)
@[simp] theorem State.advance_rout (n : Nat) : (s.advance n).rout = s.rout := (rfl)
@[simp] theorem State.advance_cin (n : Nat) : (s.advance n).cin = s.cin := (rfl)
@[simp] theorem State.advance_draws (n : Nat) : (s.advance n).draws = s.draws := (rfl)

/-! `State.emit` -/

@[simp] theorem State.emit_chain (bs : List Byte) : (s.emit bs).chain = s.chain := (rfl)
@[simp] theorem State.emit_buf (bs : List Byte) : (s.emit bs).buf = s.buf := (rfl)
@[simp] theorem State.emit_len (bs : List Byte) : (s.emit bs).len = s.len := (rfl)
@[simp] theorem State.emit_lc (bs : List Byte) : (s.emit bs).lc = s.lc := (rfl)
@[simp] theorem State.emit_fault (bs : List Byte) : (s.emit bs).fault = s.fault := (rfl)
@[simp] theorem State.emit_cause (bs : List Byte) : (s.emit bs).cause = s.cause := (rfl)
@[simp] theorem State.emit_cp (bs : List Byte) : (s.emit bs).cp = s.cp := (rfl)
@[simp] theorem State.emit_rout (bs : List Byte) : (s.emit bs).rout = s.rout ++ bs := (rfl)
@[simp] theorem State.emit_cin (bs : List Byte) : (s.emit bs).cin = s.cin := (rfl)
@[simp] theorem State.emit_draws (bs : List Byte) : (s.emit bs).draws = s.draws := (rfl)

/-! `State.enterFault` -/

@[simp] theorem State.enterFault_chain (c : Cause) : (s.enterFault c).chain = s.chain := (rfl)
@[simp] theorem State.enterFault_buf (c : Cause) : (s.enterFault c).buf = s.buf := (rfl)
@[simp] theorem State.enterFault_len (c : Cause) : (s.enterFault c).len = s.len := (rfl)
@[simp] theorem State.enterFault_lc (c : Cause) : (s.enterFault c).lc = s.lc := (rfl)
@[simp] theorem State.enterFault_fault (c : Cause) : (s.enterFault c).fault = true := (rfl)
@[simp] theorem State.enterFault_cause (c : Cause) : (s.enterFault c).cause = c := (rfl)
@[simp] theorem State.enterFault_cp (c : Cause) : (s.enterFault c).cp = s.cp := (rfl)
@[simp] theorem State.enterFault_rout (c : Cause) : (s.enterFault c).rout = s.rout := (rfl)
@[simp] theorem State.enterFault_cin (c : Cause) : (s.enterFault c).cin = s.cin := (rfl)
@[simp] theorem State.enterFault_draws (c : Cause) : (s.enterFault c).draws = s.draws := (rfl)

/-! `State.setAccumulator` -/

@[simp] theorem State.setAccumulator_chain (chain : Chain) (buf : Block) (len : BitVec 64) :
    (s.setAccumulator chain buf len).chain = chain := (rfl)
@[simp] theorem State.setAccumulator_buf (chain : Chain) (buf : Block) (len : BitVec 64) :
    (s.setAccumulator chain buf len).buf = buf := (rfl)
@[simp] theorem State.setAccumulator_len (chain : Chain) (buf : Block) (len : BitVec 64) :
    (s.setAccumulator chain buf len).len = len := (rfl)
@[simp] theorem State.setAccumulator_lc (chain : Chain) (buf : Block) (len : BitVec 64) :
    (s.setAccumulator chain buf len).lc = s.lc := (rfl)
@[simp] theorem State.setAccumulator_fault (chain : Chain) (buf : Block) (len : BitVec 64) :
    (s.setAccumulator chain buf len).fault = s.fault := (rfl)
@[simp] theorem State.setAccumulator_cause (chain : Chain) (buf : Block) (len : BitVec 64) :
    (s.setAccumulator chain buf len).cause = s.cause := (rfl)
@[simp] theorem State.setAccumulator_cp (chain : Chain) (buf : Block) (len : BitVec 64) :
    (s.setAccumulator chain buf len).cp = s.cp := (rfl)
@[simp] theorem State.setAccumulator_rout (chain : Chain) (buf : Block) (len : BitVec 64) :
    (s.setAccumulator chain buf len).rout = s.rout := (rfl)
@[simp] theorem State.setAccumulator_cin (chain : Chain) (buf : Block) (len : BitVec 64) :
    (s.setAccumulator chain buf len).cin = s.cin := (rfl)
@[simp] theorem State.setAccumulator_draws (chain : Chain) (buf : Block) (len : BitVec 64) :
    (s.setAccumulator chain buf len).draws = s.draws := (rfl)

/-! `State.setLifecycle` -/

@[simp] theorem State.setLifecycle_chain (lc : Lifecycle) : (s.setLifecycle lc).chain = s.chain := (rfl)
@[simp] theorem State.setLifecycle_buf (lc : Lifecycle) : (s.setLifecycle lc).buf = s.buf := (rfl)
@[simp] theorem State.setLifecycle_len (lc : Lifecycle) : (s.setLifecycle lc).len = s.len := (rfl)
@[simp] theorem State.setLifecycle_lc (lc : Lifecycle) : (s.setLifecycle lc).lc = lc := (rfl)
@[simp] theorem State.setLifecycle_fault (lc : Lifecycle) : (s.setLifecycle lc).fault = s.fault := (rfl)
@[simp] theorem State.setLifecycle_cause (lc : Lifecycle) : (s.setLifecycle lc).cause = s.cause := (rfl)
@[simp] theorem State.setLifecycle_cp (lc : Lifecycle) : (s.setLifecycle lc).cp = s.cp := (rfl)
@[simp] theorem State.setLifecycle_rout (lc : Lifecycle) : (s.setLifecycle lc).rout = s.rout := (rfl)
@[simp] theorem State.setLifecycle_cin (lc : Lifecycle) : (s.setLifecycle lc).cin = s.cin := (rfl)
@[simp] theorem State.setLifecycle_draws (lc : Lifecycle) : (s.setLifecycle lc).draws = s.draws := (rfl)

/-! `State.undefineAccumulator` -/

@[simp] theorem State.undefineAccumulator_len : (s.undefineAccumulator).len = Config.freeByteCount s.draws s.chain s.buf s.len ++ (0 : BitVec 3) := (rfl)
@[simp] theorem State.undefineAccumulator_lc : (s.undefineAccumulator).lc = s.lc := (rfl)
@[simp] theorem State.undefineAccumulator_fault : (s.undefineAccumulator).fault = s.fault := (rfl)
@[simp] theorem State.undefineAccumulator_cause : (s.undefineAccumulator).cause = s.cause := (rfl)
@[simp] theorem State.undefineAccumulator_cp : (s.undefineAccumulator).cp = s.cp := (rfl)
@[simp] theorem State.undefineAccumulator_rout : (s.undefineAccumulator).rout = s.rout := (rfl)
@[simp] theorem State.undefineAccumulator_cin : (s.undefineAccumulator).cin = s.cin := (rfl)
@[simp] theorem State.undefineAccumulator_draws : (s.undefineAccumulator).draws = s.draws + 1 := (rfl)

/-! `State.supply` -/

@[simp] theorem State.supply_chain (bs : List Byte) : (s.supply bs).chain = s.chain := (rfl)
@[simp] theorem State.supply_buf (bs : List Byte) : (s.supply bs).buf = s.buf := (rfl)
@[simp] theorem State.supply_len (bs : List Byte) : (s.supply bs).len = s.len := (rfl)
@[simp] theorem State.supply_lc (bs : List Byte) : (s.supply bs).lc = s.lc := (rfl)
@[simp] theorem State.supply_fault (bs : List Byte) : (s.supply bs).fault = s.fault := (rfl)
@[simp] theorem State.supply_cause (bs : List Byte) : (s.supply bs).cause = s.cause := (rfl)
@[simp] theorem State.supply_cp (bs : List Byte) : (s.supply bs).cp = s.cp := (rfl)
@[simp] theorem State.supply_rout (bs : List Byte) : (s.supply bs).rout = s.rout := (rfl)
@[simp] theorem State.supply_cin (bs : List Byte) : (s.supply bs).cin = s.cin ++ bs := (rfl)
@[simp] theorem State.supply_draws (bs : List Byte) : (s.supply bs).draws = s.draws := (rfl)

/-- L stays a multiple of 8 when it takes a free value (10_state R25, log entry 3). -/
theorem State.undefineAccumulator_len_mod : s.undefineAccumulator.len.toNat % 8 = 0 := by
  have h : s.undefineAccumulator.len.toNat = (Config.freeByteCount s.draws s.chain s.buf s.len ++ (0 : BitVec 3)).toNat := rfl
  rw [h, BitVec.toNat_append, Nat.shiftLeft_eq]
  simp

/-! Derived views. -/

@[simp] theorem State.advance_occ (n : Nat) : (s.advance n).occ = s.occ := (rfl)
@[simp] theorem State.emit_occ (bs : List Byte) : (s.emit bs).occ = s.occ := (rfl)
@[simp] theorem State.enterFault_occ (c : Cause) : (s.enterFault c).occ = s.occ := (rfl)
@[simp] theorem State.setAccumulator_occ (chain : Chain) (buf : Block) (len : BitVec 64) :
    (s.setAccumulator chain buf len).occ = occOf len := (rfl)
@[simp] theorem State.setLifecycle_occ (lc : Lifecycle) : (s.setLifecycle lc).occ = s.occ := (rfl)
@[simp] theorem State.advance_status (n : Nat) : (s.advance n).status = s.status := (rfl)
@[simp] theorem State.emit_status (bs : List Byte) : (s.emit bs).status = s.status := (rfl)

end Sys2Proof.Machine
end

