-- ==== Sys2Proof/Laws/Ops.lean ====
section
/-! SUPPORT. Everything a command and a step can do, said once: `runCommand`, `exec`, `fetch`, `step`. -/

namespace Sys2Proof.Machine

/-- The effect of each command on the state, before CP passes it. -/
def effectOf : Instr → State → State
  | .init => fun s => (s.setAccumulator iv s.buf 0).setLifecycle .active
  | .update data => fun s => s.absorb data
  | .finalize => fun s => s.finish.undefineAccumulator
  | .compress st blk => fun s => s.emit (chainBytes (compressBlock st blk))
  | .reverse st => fun s => s.emit (chainBytes (reverseChain st))
  | .unreverse st => fun s => s.emit (chainBytes (unreverseChain st))

/-- Every command runs through `runCommand` with its effect. -/
theorem exec_eq_runCommand (i : Instr) (s : State) : exec i s = runCommand i (effectOf i) s := by
  cases i <;> rfl

/-- A command runs to its effect where the engine is not halted and the lifecycle allows it. -/
theorem runCommand_next {i : Instr} {f : State → State} {s : State} (hf : s.fault = false)
    (hl : lifecycleFault i.opcode s.lc = none) : runCommand i f s = .next ((f s).advance i.size) := by
  simp [runCommand, hf, hl]

/-- A lifecycle fault is taken and nothing else happens. -/
theorem runCommand_fault {i : Instr} {f : State → State} {s : State} {c : Cause} (hf : s.fault = false)
    (hl : lifecycleFault i.opcode s.lc = some c) : runCommand i f s = .next (s.enterFault c) := by
  simp [runCommand, hf, hl]

/-- A halted engine runs no command. -/
theorem runCommand_halted {i : Instr} {f : State → State} {s : State} (hf : s.fault = true) :
    runCommand i f s = .fault (.halted s.cause) := by
  simp [runCommand, hf]

/-- Inversion of `runCommand`. -/
theorem runCommand_cases {i : Instr} {f : State → State} {s t : State} (h : runCommand i f s = .next t) :
    s.fault = false ∧
      ((∃ c, lifecycleFault i.opcode s.lc = some c ∧ t = s.enterFault c) ∨
        (lifecycleFault i.opcode s.lc = none ∧ t = (f s).advance i.size)) := by
  cases hf : s.fault with
  | true => rw [runCommand_halted hf] at h; cases h
  | false =>
    cases hl : lifecycleFault i.opcode s.lc with
    | none => rw [runCommand_next hf hl] at h; cases h; exact ⟨rfl, .inr ⟨rfl, rfl⟩⟩
    | some c => rw [runCommand_fault hf hl] at h; cases h; exact ⟨rfl, .inl ⟨c, rfl, rfl⟩⟩

/-- A lifecycle fault is raised by UPDATE and FINALIZE alone, outside ACTIVE, and its cause is never 0x00. -/
theorem lifecycleFault_some {op : Opcode} {lc : Lifecycle} {c : Cause} (h : lifecycleFault op lc = some c) :
    (op = .update ∨ op = .finalize) ∧
      ((lc = .uninit ∧ c = .notInitialised) ∨ (lc = .spent ∧ c = .accumulatorSpent)) := by
  cases op <;> cases lc <;> simp_all [lifecycleFault]

/-- UPDATE and FINALIZE run in ACTIVE only. -/
theorem lifecycleFault_none {op : Opcode} {lc : Lifecycle} (h : lifecycleFault op lc = none) :
    lc = .active ∨ (op ≠ .update ∧ op ≠ .finalize) := by
  cases op <;> cases lc <;> simp_all [lifecycleFault]

/-- A command word fault never has the cause 0x00. -/
theorem commandWordFault_ne_none {w : Word} {lc : Lifecycle} {c : Cause} (h : commandWordFault w lc = some c) :
    c ≠ .none := by
  unfold commandWordFault at h
  split at h
  · cases h; simp
  · cases h; simp
  · obtain ⟨-, ⟨-, rfl⟩ | ⟨-, rfl⟩⟩ := lifecycleFault_some h <;> simp

/-- Where the bytes at CP decode to a command, the checks on its word are those on its opcode. -/
theorem commandWordFault_of_decode {b0 b1 b2 b3 : Byte} {tail rest : List Byte} {i : Instr} {lc : Lifecycle}
    (h : decode (b0 :: b1 :: b2 :: b3 :: tail) = .command i rest) :
    commandWordFault (le32 b0 b1 b2 b3) lc = lifecycleFault i.opcode lc := by
  obtain ⟨c0, c1, c2, c3, p, op, n, hb, hw, hp, rfl⟩ := decode_command h
  simp only [List.cons.injEq] at hb
  obtain ⟨rfl, rfl, rfl, rfl, -⟩ := hb
  obtain ⟨-, -, hn⟩ := decodeWord_legal hw
  rw [commandWordFault, hw, (buildCommand_size op _ p (hp.trans hn)).2]

/-- Inversion of `step`: a fault on the command word, or a whole command's effect with CP past it. -/
theorem step_cases {s t : State} (h : step s = .next t) :
    s.fault = false ∧
      ((∃ b0 b1 b2 b3 rest c, s.pending = b0 :: b1 :: b2 :: b3 :: rest ∧
          commandWordFault (le32 b0 b1 b2 b3) s.lc = some c ∧ t = s.enterFault c) ∨
        (∃ i rest, decode s.pending = .command i rest ∧ lifecycleFault i.opcode s.lc = none ∧
          t = (effectOf i s).advance i.size)) := by
  unfold step fetch at h
  cases hf : s.fault with
  | true => simp [hf] at h
  | false =>
    refine ⟨rfl, ?_⟩
    simp only [hf, Bool.false_eq_true, if_false] at h
    split at h
    · rename_i i hi
      split at hi
      · rename_i b0 b1 b2 b3 rest hp
        split at hi
        · cases hi
        · rename_i hc
          split at hi
          · rename_i j rest' hd
            cases hi
            rw [commandWordFault_of_decode hd] at hc
            rw [exec_eq_runCommand, runCommand_next hf hc] at h
            cases h
            exact .inr ⟨i, rest', hp ▸ hd, hc, rfl⟩
          · cases hi
      · cases hi
      · cases hi
    · rename_i c hc
      split at hc
      · rename_i b0 b1 b2 b3 rest hp
        split at hc
        · rename_i c' hc'
          cases hc
          cases h
          exact .inl ⟨b0, b1, b2, b3, rest, c, hp, hc', rfl⟩
        · split at hc <;> cases hc
      · cases hc
      · cases hc
    · cases h

end Sys2Proof.Machine
end

