-- ==== Sys2Proof/Laws/Accumulator.lean ====
section
/-! SUPPORT. What the accumulator's shared operations do, said once each: the occupancy, writes into the buffer,
UPDATE's loop as a compression of whole blocks, and FINALIZE's last block or blocks. -/

namespace Sys2Proof.Machine

/-! The occupancy. -/

theorem occOf_eq (len : BitVec 64) : occOf len = len.toNat / 8 % 64 := by
  simp [occOf, BitVec.extractLsb'_toNat, Nat.shiftRight_eq_div_pow]

theorem occOf_lt (len : BitVec 64) : occOf len < 64 := by
  rw [occOf_eq]; exact Nat.mod_lt _ (by decide)

/-- The occupancy after `n` more bytes, also across the counter's wrap (41_accumulator R92). -/
theorem occOf_add (len : BitVec 64) (n : Nat) : occOf (len + BitVec.ofNat 64 (8 * n)) = (occOf len + n) % 64 := by
  rw [occOf_eq, occOf_eq, BitVec.toNat_add, BitVec.toNat_ofNat]
  omega

theorem occOf_bitLength (n : Nat) : occOf (bitLength n) = n % 64 := by
  rw [occOf_eq, bitLength, BitVec.toNat_ofNat]
  omega

/-! Writes into the buffer. -/

theorem toList_setIfInBounds_block (buf : Block) (r : Nat) (b : Byte) (hr : r < 64) :
    (buf.setIfInBounds r b).toList = buf.toList.take r ++ b :: buf.toList.drop (r + 1) := by
  rw [Vector.toList_setIfInBounds, List.set_eq_take_append_cons_drop]
  simp [hr]

theorem take_setIfInBounds_block (buf : Block) (r : Nat) (b : Byte) (hr : r < 64) :
    (buf.setIfInBounds r b).toList.take (r + 1) = buf.toList.take r ++ [b] := by
  rw [toList_setIfInBounds_block buf r b hr, List.take_append]
  simp [show min r 64 = r by omega]

/-- Bytes written at consecutive positions replace exactly those positions. -/
theorem toList_writeBytes (bs : List Byte) : ∀ (buf : Block) (pos : Nat), pos + bs.length ≤ 64 →
    (writeBytes buf pos bs).toList = buf.toList.take pos ++ bs ++ buf.toList.drop (pos + bs.length) := by
  induction bs with
  | nil => intro buf pos _; simp [writeBytes]
  | cons b bs ih =>
    intro buf pos h
    simp only [List.length_cons] at h
    rw [writeBytes, ih _ _ (by omega), take_setIfInBounds_block buf pos b (by omega),
      toList_setIfInBounds_block buf pos b (by omega), List.drop_append]
    simp [show min pos 64 = pos by omega,
      show pos + 1 + bs.length = pos + (bs.length + 1) by omega]

theorem toList_zeroFill (buf : Block) (lo hi : Nat) (h1 : lo ≤ hi) (h2 : hi ≤ 64) :
    (zeroFill buf lo hi).toList = buf.toList.take lo ++ List.replicate (hi - lo) 0 ++ buf.toList.drop hi := by
  rw [zeroFill, toList_writeBytes _ _ _ (by simp; omega)]
  simp [show lo + (hi - lo) = hi by omega]

/-- A block is decoded from its own bytes. -/
theorem block_eq_of_toList {blk : Block} {bs : List Byte} (h : blk.toList = bs) : blk = blockOfBytes bs := by
  rw [← h, ← List.append_nil blk.toList, blockOfBytes_toList]

/-! Blocks of a byte sequence. -/

theorem blocksOf_short {bs : List Byte} (h : bs.length < 64) : blocksOf bs = [] := by
  simp [blocksOf, Nat.div_eq_of_lt h]

theorem drop_block_append (blk : Block) (rest : List Byte) (n : Nat) :
    (blk.toList ++ rest).drop (64 + n) = rest.drop n := by
  rw [List.drop_append, List.drop_of_length_le (by simp)]
  simp

theorem blocksOf_block_append (blk : Block) (rest : List Byte) :
    blocksOf (blk.toList ++ rest) = blk :: blocksOf rest := by
  have h : (blk.toList ++ rest).length / 64 = rest.length / 64 + 1 := by simp
  rw [blocksOf, h, List.range_succ_eq_map, List.map_cons, List.map_map, blocksOf]
  congr 1
  · simp [blockOfBytes_toList]
  · apply List.map_congr_left
    intro k _
    simp only [Function.comp, Nat.succ_eq_add_one]
    congr 1
    rw [show 64 * (k + 1) = 64 + 64 * k by omega, drop_block_append]

/-- The block decoded from at least 64 bytes holds the first 64 of them. -/
theorem toList_blockOfBytes (bs : List Byte) (h : 64 ≤ bs.length) : (blockOfBytes bs).toList = bs.take 64 := by
  apply List.ext_getElem
  · simp; omega
  · intro i h1 h2
    simp only [Vector.length_toList] at h1
    simp [blockOfBytes, operandByte, List.getD_eq_getElem?_getD, show i < bs.length by omega]

theorem blocksOf_cons (bs : List Byte) (h : 64 ≤ bs.length) :
    blocksOf bs = blockOfBytes bs :: blocksOf (bs.drop 64) := by
  have h2 : bs = (blockOfBytes bs).toList ++ bs.drop 64 := by rw [toList_blockOfBytes bs h]; simp
  conv_lhs => rw [h2]
  rw [blocksOf_block_append]

/-- The blocks of a message and more data are the message's blocks, then those of its rest with the data
(40_compression R82, 20_memory R48). -/
theorem blocksOf_append (m data : List Byte) :
    blocksOf (m ++ data) = blocksOf m ++ blocksOf (m.drop (64 * (m.length / 64)) ++ data) := by
  induction hn : m.length / 64 generalizing m with
  | zero => rw [blocksOf_short (by omega : m.length < 64)]; simp
  | succ n ih =>
    have h : 64 ≤ m.length := by omega
    have hb : blockOfBytes (m ++ data) = blockOfBytes m := by
      rw [show m ++ data = (blockOfBytes m).toList ++ (m.drop 64 ++ data) by
        rw [toList_blockOfBytes m h]; simp [← List.append_assoc], blockOfBytes_toList]
    rw [blocksOf_cons (m ++ data) (by simp; omega), blocksOf_cons m h, List.drop_append_of_le_length h,
      ih (m.drop 64) (by simp; omega), hb]
    simp only [List.cons_append, List.drop_drop, show 64 + 64 * n = 64 * (n + 1) by omega]

theorem compressAll_append (st : Chain) (p q : List Block) :
    compressAll st (p ++ q) = compressAll (compressAll st p) q := by
  simp [compressAll]

/-! UPDATE's loop. -/

theorem feedBytes_append (x : Feed) (p q : List Byte) : feedBytes x (p ++ q) = feedBytes (feedBytes x p) q := by
  simp [feedBytes, List.foldl_append]

/-- UPDATE's loop from write position `r`: the valid bytes and the data, taken together, are compressed block by block,
and the rest is what the buffer holds below the new write position (41_accumulator R91, R100). The loop depends on no
other byte of the buffer. -/
theorem feedBytes_eq (data : List Byte) : ∀ (x : Feed), x.r < 64 →
    let all := x.buf.toList.take x.r ++ data
    (feedBytes x data).chain = compressAll x.chain (blocksOf all) ∧
      (feedBytes x data).r = (x.r + data.length) % 64 ∧
      (feedBytes x data).buf.toList.take ((x.r + data.length) % 64) =
        all.drop (64 * ((x.r + data.length) / 64)) := by
  induction data with
  | nil =>
    intro x hr
    have h : (List.take x.r x.buf.toList).length < 64 := by simp; omega
    simp [feedBytes, blocksOf_short h, compressAll, Nat.mod_eq_of_lt hr, Nat.div_eq_of_lt hr]
  | cons b data ih =>
    intro x hr
    by_cases h64 : x.r + 1 = 64
    · have hx : feedByte x b =
          ⟨compressBlock x.chain (x.buf.setIfInBounds x.r b), x.buf.setIfInBounds x.r b, 0⟩ := by
        simp [feedByte, h64]
      have hfull : (x.buf.setIfInBounds x.r b).toList = x.buf.toList.take x.r ++ [b] := by
        rw [← take_setIfInBounds_block x.buf x.r b hr, h64, List.take_of_length_le (by simp)]
      have hall : x.buf.toList.take x.r ++ b :: data = (x.buf.setIfInBounds x.r b).toList ++ data := by
        rw [hfull]; simp
      obtain ⟨h1, h2, h3⟩ := ih (feedByte x b) (by simp [hx])
      have hstep : feedBytes x (b :: data) = feedBytes (feedByte x b) data := rfl
      have hm : (x.r + (b :: data).length) % 64 = data.length % 64 := by simp; omega
      have hd : 64 * ((x.r + (b :: data).length) / 64) = 64 + 64 * (data.length / 64) := by simp; omega
      rw [hx] at h1 h2 h3
      simp only [List.take_zero, List.nil_append, Nat.zero_add] at h1 h2 h3
      refine ⟨?_, ?_, ?_⟩
      · rw [hstep, hx, h1, hall, blocksOf_block_append]; rfl
      · rw [hstep, hx, h2, hm]
      · rw [hstep, hx, hm, h3, hd, hall, drop_block_append]
    · have hx : feedByte x b = ⟨x.chain, x.buf.setIfInBounds x.r b, x.r + 1⟩ := by
        simp [feedByte, h64]
      obtain ⟨h1, h2, h3⟩ := ih (feedByte x b) (by rw [hx]; simp only; omega)
      have hstep : feedBytes x (b :: data) = feedBytes (feedByte x b) data := rfl
      have hn : x.r + (b :: data).length = x.r + 1 + data.length := by simp; omega
      rw [hx] at h1 h2 h3
      simp only [take_setIfInBounds_block x.buf x.r b hr, List.append_assoc, List.singleton_append] at h1 h2 h3
      exact ⟨by rw [hstep, hx, h1], by rw [hstep, hx, h2, hn], by rw [hstep, hx, hn, h3]⟩

/-- UPDATE writes A to D, BUF and L, and nothing else (41_accumulator R91). -/
theorem absorb_eq_setAccumulator (s : State) (data : List Byte) :
    s.absorb data = s.setAccumulator (feedBytes ⟨s.chain, s.buf, s.occ⟩ data).chain
      (feedBytes ⟨s.chain, s.buf, s.occ⟩ data).buf (s.len + BitVec.ofNat 64 (8 * data.length)) := rfl

/-- UPDATE's effect on A to D, L and the valid bytes of BUF (41_accumulator R91, R92). -/
theorem absorb_eq (s : State) (data : List Byte) :
    let all := s.buf.toList.take s.occ ++ data
    (s.absorb data).chain = compressAll s.chain (blocksOf all) ∧
      (s.absorb data).len = s.len + BitVec.ofNat 64 (8 * data.length) ∧
      (s.absorb data).occ = (s.occ + data.length) % 64 ∧
      (s.absorb data).buf.toList.take ((s.occ + data.length) % 64) =
        all.drop (64 * ((s.occ + data.length) / 64)) := by
  obtain ⟨h1, h2, h3⟩ := feedBytes_eq data ⟨s.chain, s.buf, s.occ⟩ (occOf_lt s.len)
  exact ⟨h1, rfl, occOf_add _ _, h3⟩

@[simp] theorem State.absorb_lc (s : State) (data : List Byte) : (s.absorb data).lc = s.lc := (rfl)
@[simp] theorem State.absorb_fault (s : State) (data : List Byte) : (s.absorb data).fault = s.fault := (rfl)
@[simp] theorem State.absorb_cause (s : State) (data : List Byte) : (s.absorb data).cause = s.cause := (rfl)
@[simp] theorem State.absorb_cp (s : State) (data : List Byte) : (s.absorb data).cp = s.cp := (rfl)
@[simp] theorem State.absorb_rout (s : State) (data : List Byte) : (s.absorb data).rout = s.rout := (rfl)
@[simp] theorem State.absorb_cin (s : State) (data : List Byte) : (s.absorb data).cin = s.cin := (rfl)
@[simp] theorem State.absorb_draws (s : State) (data : List Byte) : (s.absorb data).draws = s.draws := (rfl)

/-- The effects of two UPDATEs, the first one's CP advance between them, are that of one UPDATE of both byte strings
(41_accumulator R91, R92). -/
theorem absorb_append (s : State) (p q : List Byte) (k : Nat) :
    ((s.absorb p).advance k).absorb q = (s.absorb (p ++ q)).advance k := by
  have ho : (s.absorb p).occ = (feedBytes ⟨s.chain, s.buf, s.occ⟩ p).r := by
    rw [(absorb_eq s p).2.2.1]; exact (feedBytes_eq p ⟨s.chain, s.buf, s.occ⟩ (occOf_lt s.len)).2.1.symm
  have h : (⟨(s.absorb p).chain, (s.absorb p).buf, (s.absorb p).occ⟩ : Feed) = feedBytes ⟨s.chain, s.buf, s.occ⟩ p := by
    rw [ho]; rfl
  have e : ((s.absorb p).advance k).absorb q = ((s.absorb p).absorb q).advance k := rfl
  rw [e]; congr 1
  rw [absorb_eq_setAccumulator (s.absorb p), h, ← feedBytes_append, (absorb_eq s p).2.1, BitVec.add_assoc,
    ← BitVec.ofNat_add, ← Nat.mul_add, ← List.length_append]
  rfl

/-! FINALIZE. -/

/-- FINALIZE's pseudocode writes A to D, BUF, ROUT and LC; L keeps its value (41_accumulator R95, R98). -/
theorem finish_eq (s : State) :
    s.finish = ((s.setAccumulator (padAndCompress s.chain s.buf s.len).1 (padAndCompress s.chain s.buf s.len).2
      s.len).emit (chainBytes (padAndCompress s.chain s.buf s.len).1)).setLifecycle .spent := rfl

@[simp] theorem State.finish_lc (s : State) : s.finish.lc = .spent := by
  rw [finish_eq, State.setLifecycle_lc]
@[simp] theorem State.finish_len (s : State) : s.finish.len = s.len := by
  rw [finish_eq, State.setLifecycle_len, State.emit_len, State.setAccumulator_len]
@[simp] theorem State.finish_fault (s : State) : s.finish.fault = s.fault := by
  rw [finish_eq, State.setLifecycle_fault, State.emit_fault, State.setAccumulator_fault]
@[simp] theorem State.finish_cause (s : State) : s.finish.cause = s.cause := by
  rw [finish_eq, State.setLifecycle_cause, State.emit_cause, State.setAccumulator_cause]
@[simp] theorem State.finish_cp (s : State) : s.finish.cp = s.cp := by
  rw [finish_eq, State.setLifecycle_cp, State.emit_cp, State.setAccumulator_cp]
@[simp] theorem State.finish_cin (s : State) : s.finish.cin = s.cin := by
  rw [finish_eq, State.setLifecycle_cin, State.emit_cin, State.setAccumulator_cin]
@[simp] theorem State.finish_draws (s : State) : s.finish.draws = s.draws := by
  rw [finish_eq, State.setLifecycle_draws, State.emit_draws, State.setAccumulator_draws]
@[simp] theorem State.finish_rout (s : State) :
    s.finish.rout = s.rout ++ chainBytes (padAndCompress s.chain s.buf s.len).1 := by
  rw [finish_eq, State.setLifecycle_rout, State.emit_rout, State.setAccumulator_rout]

/-- FINALIZE with room for the length field: one compression of the valid bytes, 0x80, zeros and the length
(41_accumulator R95, R96, R97). -/
theorem padAndCompress_one (chain : Chain) (buf : Block) (len : BitVec 64) (h : occOf len ≤ 55) :
    (padAndCompress chain buf len).1 =
      compressBlock chain (blockOfBytes (buf.toList.take (occOf len) ++ 0x80 ::
        (List.replicate (55 - occOf len) 0 ++ bytes64 len))) := by
  have hr : occOf len < 64 := occOf_lt len
  have hblk : writeBytes (zeroFill (buf.setIfInBounds (occOf len) 0x80) (occOf len + 1) 56) 56 (bytes64 len) =
      blockOfBytes (buf.toList.take (occOf len) ++ 0x80 :: (List.replicate (55 - occOf len) 0 ++ bytes64 len)) := by
    apply block_eq_of_toList
    rw [toList_writeBytes _ _ _ (by simp), toList_zeroFill _ _ _ (by omega) (by omega),
      take_setIfInBounds_block _ _ _ hr, List.take_append_of_le_length (by simp; omega),
      List.take_of_length_le (by simp; omega), List.drop_of_length_le (by simp; omega)]
    simp [show 56 - (occOf len + 1) = 55 - occOf len by omega]
  simp only [padAndCompress]
  rw [if_neg (by omega), hblk]

/-- FINALIZE without that room: the block of the valid bytes, 0x80 and zeros is compressed first, then a block of 56
zeros and the length (41_accumulator R95, R96, R97). -/
theorem padAndCompress_two (chain : Chain) (buf : Block) (len : BitVec 64) (h : 56 ≤ occOf len) :
    (padAndCompress chain buf len).1 =
      compressBlock
        (compressBlock chain
          (blockOfBytes (buf.toList.take (occOf len) ++ 0x80 :: List.replicate (63 - occOf len) 0)))
        (blockOfBytes (List.replicate 56 0 ++ bytes64 len)) := by
  have hr : occOf len < 64 := occOf_lt len
  have hfirst : zeroFill (buf.setIfInBounds (occOf len) 0x80) (occOf len + 1) 64 =
      blockOfBytes (buf.toList.take (occOf len) ++ 0x80 :: List.replicate (63 - occOf len) 0) := by
    apply block_eq_of_toList
    rw [toList_zeroFill _ _ _ (by omega) (by omega), take_setIfInBounds_block _ _ _ hr,
      List.drop_of_length_le (by simp)]
    simp [show 64 - (occOf len + 1) = 63 - occOf len by omega]
  have hlast (b : Block) : writeBytes (zeroFill b 0 56) 56 (bytes64 len) =
      blockOfBytes (List.replicate 56 0 ++ bytes64 len) := by
    apply block_eq_of_toList
    rw [toList_writeBytes _ _ _ (by simp), toList_zeroFill _ _ _ (by omega) (by omega),
      List.take_append_of_le_length (by simp), List.take_of_length_le (by simp),
      List.drop_of_length_le (by simp)]
    simp
  simp only [padAndCompress]
  rw [if_pos (by omega)]
  simp only [hfirst, hlast]

end Sys2Proof.Machine
end

