-- ==== Sys2Proof/Laws/Compression.lean ====
section
/-! SUPPORT. Small facts about the compression's parts: the working registers, the schedule's length, the rotation by
halves of the word, and the feed-forward. -/

namespace Sys2Proof.Machine

/-- A written working register reads back, and the others keep their value (40_compression R75). -/
theorem readReg_writeReg (w : Chain) (r q : Reg) (v : Word) :
    readReg (writeReg w r v) q = if q = r then v else readReg w q := by
  cases r <;> cases q <;> rfl

@[simp] theorem schedule_length : schedule.length = 48 := by simp [schedule]

/-- The row of step `j` (40_compression R79). -/
theorem schedule_getElem (j : Nat) (h : j < schedule.length) : schedule[j] = scheduleRow j := by
  simp [schedule]

/-- The working registers after one more step (40_compression R80). -/
theorem workingAfter_succ (st : Chain) (blk : Block) (j : Nat) (h : j < 48) :
    workingAfter st blk (j + 1) = compressStep blk (workingAfter st blk j) (scheduleRow j) := by
  rw [workingAfter, List.take_succ_eq_append_getElem (by simpa using h), List.foldl_append, schedule_getElem]
  rfl

/-- No step's operands include its target (40_compression R75, R76). -/
theorem scheduleRow_operands_ne (j : Nat) :
    (scheduleRow j).u ≠ (scheduleRow j).t ∧ (scheduleRow j).v ≠ (scheduleRow j).t ∧
      (scheduleRow j).w ≠ (scheduleRow j).t := by
  simp only [scheduleRow, stepRoles]
  split <;> decide

/-- Bit `i` of a left rotation (00_scope R12). -/
theorem getLsbD_rotl (x : Word) (n i : Nat) (hi : i < 32) (hn : n ≤ 32) :
    (rotl x n).getLsbD i = if i < n then x.getLsbD (32 - n + i) else x.getLsbD (i - n) := by
  simp only [rotl, BitVec.getLsbD_or, BitVec.getLsbD_shiftLeft, BitVec.getLsbD_ushiftRight]
  split
  · simp [*]
  · rw [BitVec.getLsbD_of_ge x (32 - n + i) (by omega)]; simp [*]

end Sys2Proof.Machine
end

