-- ==== Sys2Proof/Laws/Fetch.lean ====
section
/-! SUPPORT. Where a placed command stands: at CP, ahead of what followed it. -/

namespace Sys2Proof.Machine

/-- Bytes placed at an offset are read there, ahead of what stood behind them. -/
theorem drop_placeBytes (cin : List Byte) (pos : Nat) (bs : List Byte) :
    (placeBytes cin pos bs).drop pos = bs ++ cin.drop (pos + bs.length) := by
  have h : (cin.take pos ++ List.replicate (pos - cin.length) (0 : Byte)).length = pos := by
    simp; omega
  simp only [placeBytes, List.append_assoc]
  rw [← List.append_assoc (cin.take pos), List.drop_append, List.drop_of_length_le (by omega), h]
  simp

/-- The next step finds the placed word at CP. -/
theorem pending_withFetchWord (s : State) (nbits w : Nat) :
    (s.withFetchWord nbits w).pending = tableBytes nbits w ++ s.cin.drop (s.cp + (tableBytes nbits w).length) :=
  drop_placeBytes s.cin s.cp (tableBytes nbits w)

end Sys2Proof.Machine
end

