-- ==== Sys2Proof/Laws/PerInstr.lean ====
section
/-! SUPPORT. The family of per-instruction lemmas: the length and the opcode byte of a command's encoding
(30_encoding R56, R57, R58). -/

namespace Sys2Proof.Laws.EncodedForm

open Sys2Proof.Machine

/-- A command's encoding has 4 + OPLEN bytes, and its first byte is the opcode's value. -/
def Statement (i : Instr) : Prop :=
  (encode i).length = i.size ∧ (encode i).head? = some i.opcode.code

/-- The first byte of the encoding is OPC. -/
theorem head_encode (i : Instr) : (encode i).head? = some i.opcode.code := by
  have h : i.commandWord.extractLsb' 0 8 = i.opcode.code := wordOpc_append i.arg i.opcode.code
  simp [encode, bytes32, h]

theorem init : Statement .init := ⟨rfl, head_encode _⟩

theorem update (data : List Byte) : Statement (.update data) :=
  ⟨by simp [encode, Instr.operandBytes, Instr.size], head_encode _⟩

theorem finalize : Statement .finalize := ⟨rfl, head_encode _⟩

theorem compress (st : Chain) (blk : Block) : Statement (.compress st blk) :=
  ⟨by simp [encode, Instr.operandBytes, Instr.size], head_encode _⟩

theorem reverse (st : Chain) : Statement (.reverse st) := ⟨rfl, head_encode _⟩

theorem unreverse (st : Chain) : Statement (.unreverse st) := ⟨rfl, head_encode _⟩

end Sys2Proof.Laws.EncodedForm
end

