-- ==== Sys2Proof/Tests/Slice0.lean ====
section
/-! SUPPORT. Small tests with results taken from spec/95_test_vectors.md and the rules' own examples, the decoding of
words written out from spec/30_encoding.md, and a witness for the hypotheses of every statement. -/

namespace Sys2Proof.Tests

open Sys2Proof Sys2Proof.Machine

/-! Helpers. -/

/-- The next state of an outcome, if there is one. -/
def nextOf : Result → Option State
  | .next t => some t
  | .fault _ => none
  | .refused _ => none

/-- The stop of an outcome, if there is one. -/
def faultOf : Result → Option Fault
  | .next _ => none
  | .fault r => some r
  | .refused _ => none

/-- After INIT. -/
def active : State := { State.reset with chain := iv, lc := .active }

/-- After INIT and UPDATE "abc" (41_accumulator R91, example). -/
def activeAbc : State := { active with buf := blockOfBytes [0x61, 0x62, 0x63], len := 24 }

/-- After FINALIZE. -/
def spent : State := { State.reset with lc := .spent }

/-- Halted by an illegal opcode. -/
def halted : State := { State.reset with fault := true, cause := .illegalOpcode }

/-- A block of one byte value. -/
def blockOf (b : Byte) : Block := Vector.replicate 64 b

/-! WellFormed: the one check, refused and met. -/

/-- LEN does not hold 16777216 (30_encoding R59). -/
theorem test_wf_update_too_long : ¬ (Instr.update (List.replicate 16777216 0)).WellFormed := by
  rw [Instr.WellFormed, Instr.wf, List.length_replicate]; decide

/-- LEN holds 16777215 (30_encoding R59). -/
theorem test_wf_update_longest : (Instr.update (List.replicate 16777215 0)).WellFormed := by
  rw [Instr.WellFormed, Instr.wf, List.length_replicate]; decide

/-! Decoding of words written out bit by bit from 30_encoding R55 to R58. -/

theorem test_decode_init : decodeTableWord 32 0b00000000000000000000000000000001 = some .init := by decide
theorem test_decode_update :
    decodeTableWord 32 0b00000000000000000000001100000010 = some (.update [0, 0, 0]) := by decide
theorem test_decode_finalize : decodeTableWord 32 0b00000000000000000000000000000011 = some .finalize := by decide
theorem test_decode_compress :
    decodeTableWord 32 0b00000000000000000000000000000100 = some (.compress ⟨0, 0, 0, 0⟩ (blockOf 0)) := by
  decide +kernel
theorem test_decode_reverse :
    decodeTableWord 32 0b00000000000000000000000000000101 = some (.reverse ⟨0, 0, 0, 0⟩) := by decide
theorem test_decode_unreverse :
    decodeTableWord 32 0b00000000000000000000000000000110 = some (.unreverse ⟨0, 0, 0, 0⟩) := by decide
theorem test_decode_reserved_opcodes :
    decodeTableWord 32 0b00000000000000000000000000000000 = none ∧
    decodeTableWord 32 0b00000000000000000000000000000111 = none ∧
    decode [0xff, 0x00, 0x00, 0x00] = .illegalOpcode := by decide
theorem test_decode_reserved_field :
    decode [0x01, 0x01, 0x00, 0x00] = .reservedField ∧ decode [0x05, 0x00, 0x00, 0x80] = .reservedField := by decide

/-- V30c: the largest LEN is read from ARG, high byte last. -/
theorem test_decodeWord_largest_len : decodeWord 0xffffff02 = .legal .update 16777215 := by decide

/-- 30_encoding R69: the encoding of UPDATE "abc" and of REVERSE with the words of md4(""). -/
theorem test_encode_examples :
    encode (.update [0x61, 0x62, 0x63]) = [0x02, 0x03, 0x00, 0x00, 0x61, 0x62, 0x63] ∧
    encode (.reverse ⟨0xe0cfd631, 0x31e96ad1, 0xd7593cb7, 0xc089c0e0⟩) =
      [0x05, 0x00, 0x00, 0x00, 0x31, 0xd6, 0xcf, 0xe0, 0xd1, 0x6a, 0xe9, 0x31, 0xb7, 0x3c, 0x59, 0xd7, 0xe0, 0xc0,
        0x89, 0xc0] := by decide

/-- A word of the opcode table placed at CP is the first command after reset. -/
theorem test_withFetchWord_runs :
    (nextOf (step (State.reset.withFetchWord 32 1))).map (·.cp) = some 4 ∧
    (nextOf (step (State.reset.withFetchWord 32 2))).map (·.cause) = some .notInitialised ∧
    (nextOf (step (State.reset.withFetchWord 32 5))).map (·.cp) = some 20 := by decide

/-! The commands, one step each. -/

/-- 41_accumulator R90, example. -/
theorem test_init_status :
    (nextOf (step (State.reset.supply [0x01, 0x00, 0x00, 0x00]))).map (fun t => (t.chain, t.len, t.status, t.cp)) =
      some (iv, 0, 0x00000001, 4) := by decide

/-- 41_accumulator R91, example: BUF, L and A..D after UPDATE "abc". -/
theorem test_update_abc :
    (nextOf (exec (.update [0x61, 0x62, 0x63]) active)).map (fun t => (t.buf.toList.take 3, t.len, t.occ, t.chain)) =
      some ([0x61, 0x62, 0x63], 24, 3, iv) := by decide +kernel

/-- V24: the counter wraps, the block of 64 zero bytes is compressed (V22a). -/
theorem test_update_counter_wrap :
    (nextOf (exec (.update [0x00]) { active with len := 0xfffffffffffffff8 })).map (fun t => (t.chain, t.len)) =
      some (⟨0x015155ef, 0x2e5f67ab, 0x3681c98d, 0x7447ab15⟩, 0) := by decide +kernel

/-- V25: one block, the high length word set. -/
theorem test_finalize_high_length :
    (nextOf (exec .finalize { active with len := 0xfffffffffffffe00 })).map (fun t => (t.rout, t.lc)) =
      some ([0x58, 0x0a, 0x23, 0xb1, 0xce, 0x7b, 0x1d, 0xd3, 0x7c, 0x67, 0x25, 0x13, 0xd0, 0x96, 0xb6, 0xed],
        .spent) := by decide +kernel

/-- V26: the two-block path for 56 bytes. -/
theorem test_finalize_two_blocks :
    (nextOf (exec .finalize { active with buf := blockOf 0x61, len := 448 })).map (·.rout) =
      some [0xd5, 0xf9, 0xa9, 0xe9, 0x25, 0x70, 0x77, 0xa5, 0xf0, 0x8b, 0x0b, 0x92, 0xf3, 0x48, 0xb0, 0xad] := by
  decide +kernel

/-- V22d: bytes 0x00, 0x01, ..., 0x3f from IV. -/
theorem test_compress_counting_block :
    compressBlock iv (blockOfBytes ((List.range 64).map (BitVec.ofNat 8))) =
      ⟨0x4ecabfd4, 0xa26ef3a6, 0xc90c1563, 0xdb599a46⟩ := by decide +kernel

/-- 20_memory R42 on the bytes 0x00, 0x01, ..., 0x3f: X[0], X[1] and X[15], least significant byte first. -/
theorem test_block_words :
    blockWord (blockOfBytes ((List.range 64).map (BitVec.ofNat 8))) 0 = 0x03020100 ∧
    blockWord (blockOfBytes ((List.range 64).map (BitVec.ofNat 8))) 1 = 0x07060504 ∧
    blockWord (blockOfBytes ((List.range 64).map (BitVec.ofNat 8))) 15 = 0x3f3e3d3c := by decide +kernel

/-- V22c, as a command in UNINIT: all-ones state and block; the result bytes and CP. -/
theorem test_compress_all_ones :
    (nextOf (exec (.compress ⟨0xffffffff, 0xffffffff, 0xffffffff, 0xffffffff⟩ (blockOf 0xff)) State.reset)).map
        (fun t => (t.rout, t.cp, t.status)) =
      some ([0x1b, 0xce, 0xe8, 0x11, 0x5a, 0xcd, 0x0e, 0x51, 0xee, 0xde, 0x4b, 0x30, 0x0a, 0x9f, 0xf7, 0x63], 84,
        0x00000000) := by decide +kernel

/-- V21, row 24: the working registers in the middle of round 2 for the empty message's padded block. -/
theorem test_working_registers_step_24 :
    workingAfter iv (blockOfBytes [0x80]) 25 = ⟨0x11e8953d, 0x3d0db9ec, 0x9e4a14b3, 0x6410a1c2⟩ := by decide +kernel

/-- V40: REVERSE of md4("abc"). -/
theorem test_reverse_abc :
    (nextOf (exec (.reverse ⟨0x7a0148a4, 0x52d821af, 0xe80ac15f, 0x9d72a67a⟩) spent)).map (fun t => (t.rout, t.cp)) =
      some ([0xa3, 0x25, 0xbc, 0x12, 0xdd, 0x6d, 0x81, 0x1e, 0x61, 0xe4, 0x4f, 0x4f, 0x04, 0x52, 0x40, 0x8d], 20) := by
  decide +kernel

/-- V43b and V43e. -/
theorem test_reverse_corners :
    reverseChain ⟨0xffffffff, 0xffffffff, 0xffffffff, 0xffffffff⟩ =
      ⟨0x98badcfe, 0x51c0681e, 0x67452301, 0xefcdab89⟩ ∧
    reverseChain ⟨0x80000000, 0x80000000, 0x80000000, 0x80000000⟩ =
      ⟨0x18badcff, 0x51bf6824, 0xe7452302, 0x6fcdab8a⟩ := by decide

/-- V43c: UNREVERSE of IV, as a command. -/
theorem test_unreverse_iv :
    (nextOf (exec (.unreverse iv) State.reset)).map (·.rout) =
      some [0x02, 0x46, 0x8a, 0xce, 0xa7, 0x40, 0x0c, 0x53, 0xfc, 0xb9, 0x75, 0x31, 0xec, 0xa8, 0x64, 0x20] := by
  decide +kernel

/-- V43d and V43e. -/
theorem test_unreverse_corners :
    unreverseChain ⟨0x00000001, 0x00000002, 0x00000003, 0x00000004⟩ =
      ⟨0x67452302, 0xc1575dde, 0x98badd01, 0x1032547a⟩ ∧
    unreverseChain ⟨0x80000000, 0x80000000, 0x80000000, 0x80000000⟩ =
      ⟨0xe7452301, 0x61549dde, 0x18badcfe, 0x90325476⟩ := by decide

/-- V18 and V19: mixing functions and rotations. -/
theorem test_mixing_and_rotations :
    mixF 0xf0f0f0f0 0xff00ff00 0x0ff00ff0 = 0xff00ff00 ∧ mixG 0xf0f0f0f0 0xff00ff00 0x0ff00ff0 = 0xfff0fff0 ∧
    mixH 0x00000000 0x12345678 0x9abcdef0 = 0x88888888 ∧ mixH 0xf0f0f0f0 0xff00ff00 0x0ff00ff0 = 0x00000000 ∧
    Mix.apply .f 0xffffffff 0x12345678 0x9abcdef0 = 0x12345678 ∧
    Mix.apply .g 0xffffffff 0x12345678 0x9abcdef0 = 0x9abcdef8 ∧
    Mix.apply .h 0xffffffff 0x12345678 0x9abcdef0 = 0x77777777 ∧ rotl 0x80000001 3 = 0x0000000c ∧
    rotl 0x12345678 19 = 0xb3c091a2 ∧ rotr 0x12345678 15 = 0xacf02468 := by decide

/-! Faults and waiting. -/

/-- V50a: a run of zero bytes faults; CP stays. -/
theorem test_fault_illegal_opcode :
    (nextOf (step (State.reset.supply [0x00, 0x00, 0x00, 0x00]))).map (fun t => (t.status, t.cp)) =
      some (0x00000104, 0) := by decide

/-- V50b: UPDATE before INIT faults, and does so before its operand bytes are there (30_encoding R64). -/
theorem test_fault_not_initialised :
    (nextOf (step (State.reset.supply [0x02, 0x01, 0x00, 0x00]))).map (fun t => (t.status, t.cp)) =
      some (0x00000304, 0) := by decide

/-- V50d. -/
theorem test_fault_spent :
    (nextOf (step (spent.supply [0x03, 0x00, 0x00, 0x00]))).map (fun t => (t.status, t.rout)) =
      some (0x00000406, []) := by decide

/-- V50e: RESERVED_FIELD goes before ACCUMULATOR_SPENT. -/
theorem test_fault_priority :
    (nextOf (step (spent.supply [0x03, 0x01, 0x00, 0x00]))).map (·.status) = some 0x00000206 := by decide

/-- V50g: nothing runs while halted. -/
theorem test_halted_stops :
    faultOf (step (halted.supply [0x01, 0x00, 0x00, 0x00])) = some (.halted .illegalOpcode) ∧
    halted.status = 0x00000104 := by decide

/-- V50h: UPDATE waits for its bytes. -/
theorem test_update_waits :
    faultOf (step (active.supply [0x02, 0x05, 0x00, 0x00, 0x61, 0x62])) = some .incomplete ∧
    (active.supply [0x02, 0x05, 0x00, 0x00, 0x61, 0x62]).runEnd = some .incomplete := by decide

/-! The assembler. -/

/-- 30_encoding R67, R68: a comment, a pseudo-instruction, and a `;` inside a text. -/
theorem test_assemble_hash :
    assemble "HASH \"a;\" ; comment".toList =
      some [0x01, 0, 0, 0, 0x02, 0x02, 0, 0, 0x61, 0x3b, 0x03, 0, 0, 0] := by decide +kernel

/-- 30_encoding R67: hex digits give the bytes in order, and LEN counts them. -/
theorem test_assemble_hex :
    assemble "UPDATE hex:0a1b2c".toList = some [0x02, 0x03, 0x00, 0x00, 0x0a, 0x1b, 0x2c] := by decide +kernel

/-- Not of the syntax: an odd number of hex digits, a lower-case mnemonic. -/
theorem test_assemble_refuses :
    assemble "UPDATE hex:616".toList = none ∧ assemble "init".toList = none := by decide +kernel

/-! Witnesses: a concrete state and operands meeting the hypotheses of each statement that has some. -/

/-- StatusRegisterLayout: two states that differ and agree in LC, FAULT and CAUSE. -/
theorem witness_status_sources :
    active.lc = activeAbc.lc ∧ active.fault = activeAbc.fault ∧ active.cause = activeAbc.cause ∧ active ≠ activeAbc := by
  decide +kernel

/-- DecodeOfEncode. -/
theorem witness_wellFormed : (Instr.update [0x61]).WellFormed ∧ (Instr.compress iv (blockOf 1)).WellFormed := by decide

/-- EncodeOfDecode and StepRunsDecodedCommand. -/
theorem witness_decodes :
    decode (State.reset.supply [0x01, 0x00, 0x00, 0x00, 0x05]).pending = .command .init [0x05] := by decide

/-- CommandWordChecks, the illegal opcodes at both ends of their ranges. -/
theorem witness_checks_illegal :
    State.reset.fault = false ∧ (State.reset.supply [0x00, 1, 2, 3]).pending = 0x00 :: 1 :: 2 :: 3 :: [] ∧
    (State.reset.supply [0x07, 0, 0, 0]).pending = 0x07 :: 0 :: 0 :: 0 :: [] ∧
    (State.reset.supply [0xff, 0, 0, 0]).pending = 0xff :: 0 :: 0 :: 0 :: [] ∧
    7 ≤ (0x07 : Byte).toNat ∧ 7 ≤ (0xff : Byte).toNat ∧ ¬ 7 ≤ (0x06 : Byte).toNat := by decide

/-- CommandWordChecks, a reserved field: ARG 1 and ARG bit 23. -/
theorem witness_checks_reserved :
    State.reset.fault = false ∧ (State.reset.supply [0x01, 1, 0, 0]).pending = 0x01 :: 1 :: 0 :: 0 :: [] ∧
    (State.reset.supply [0x06, 0, 0, 0x80]).pending = 0x06 :: 0 :: 0 :: 0x80 :: [] ∧
    (1 : Byte).toNat + 256 * (0 : Byte).toNat + 65536 * (0 : Byte).toNat ≠ 0 ∧
    (0 : Byte).toNat + 256 * (0 : Byte).toNat + 65536 * (0x80 : Byte).toNat ≠ 0 := by decide

/-- CommandWordChecks, the two lifecycle faults, and LifecycleFaults. -/
theorem witness_checks_lifecycle :
    State.reset.fault = false ∧ State.reset.lc = .uninit ∧ spent.fault = false ∧ spent.lc = .spent ∧
    (State.reset.supply [0x02, 0, 0, 0]).pending = 0x02 :: 0 :: 0 :: 0 :: [] ∧
    (spent.supply [0x03, 0, 0, 0]).pending = 0x03 :: 0 :: 0 :: 0 :: [] ∧
    (Instr.update []).opcode = .update ∧ Instr.finalize.opcode = .finalize := by decide

/-- CommandWordChecks, one byte short and just long enough. -/
theorem witness_checks_operands :
    active.fault = false ∧ active.lc = .active ∧
    (active.supply [0x02, 2, 0, 0, 0x61]).pending = 0x02 :: 2 :: 0 :: 0 :: [0x61] ∧ [(0x61 : Byte)].length < 2 ∧
    (active.supply [0x02, 1, 0, 0, 0x61]).pending = 0x02 :: 1 :: 0 :: 0 :: [0x61] ∧ ¬ [(0x61 : Byte)].length < 1 := by
  decide

/-- LegalCommandsComplete, for a command of every lifecycle and for one that needs ACTIVE. -/
theorem witness_legal :
    State.reset.fault = false ∧ (Instr.init.opcode = .update ∨ Instr.init.opcode = .finalize → State.reset.lc = .active) ∧
    active.fault = false ∧ (Instr.finalize.opcode = .update ∨ Instr.finalize.opcode = .finalize → active.lc = .active) := by
  decide

/-- FaultEntryIsPrecise: a step and an execution that end with FAULT = 1. -/
theorem witness_fault_entry :
    (nextOf (step (State.reset.supply [0x00, 0x00, 0x00, 0x00]))).map (·.fault) = some true ∧
    (nextOf (exec .finalize State.reset)).map (·.fault) = some true := by decide

/-- HaltedUntilReset. -/
theorem witness_halted : halted.fault = true := rfl

/-- MissingBytesAreWaitedFor: no byte, part of a word, part of the operands; and the bytes that end the wait. -/
theorem witness_missing_bytes :
    active.fault = false ∧ active.needsBytes = true ∧ (active.supply [0x02]).needsBytes = true ∧
    (active.supply [0x02, 2, 0, 0, 0x61]).needsBytes = true ∧
    (active.supply [0x02, 2, 0, 0, 0x61]).cp ≤ (active.supply [0x02, 2, 0, 0, 0x61]).cin.length ∧
    decode ((active.supply [0x02, 2, 0, 0, 0x61]).pending ++ [0x62]) = .command (.update [0x61, 0x62]) [] := by decide

/-- CommandPointerAndResultStream, StepKeepsStateInvariant: a step that faults, one without and one with a result. -/
theorem witness_steps :
    (nextOf (step (State.reset.supply [0x00, 0, 0, 0]))).isSome = true ∧
    (nextOf (step (State.reset.supply [0x01, 0, 0, 0]))).isSome = true ∧
    (nextOf (step (activeAbc.supply [0x03, 0, 0, 0]))).map (·.rout.length) = some 16 := by decide +kernel

/-- LifecycleMoves: executions that answer a next state, one per clause. -/
theorem witness_lifecycle_moves :
    (nextOf (exec .init spent)).map (·.lc) = some .active ∧
    (nextOf (exec .finalize active)).map (·.lc) = some .spent ∧
    (nextOf (exec (.update [0x61]) active)).map (·.lc) = some .active ∧
    (nextOf (exec (.update [0x61]) spent)).map (·.fault) = some true ∧
    (nextOf (exec (.compress iv (blockOf 0)) State.reset)).map (·.lc) = some .uninit ∧
    (nextOf (exec (.reverse iv) spent)).map (·.lc) = some .spent ∧
    (nextOf (exec (.unreverse iv) active)).map (·.lc) = some .active := by decide +kernel

/-- InitEffect (second part), in a lifecycle that is not ACTIVE before. -/
theorem witness_init_twice :
    spent.fault = false ∧ ((nextOf (exec .init spent)).bind fun t => nextOf (exec .init t)).map (·.cp) = some 8 := by
  decide

/-- UpdateEffect, UpdateCountsBits, EmptyUpdate, FinalizeCompressions: OCC 0, 3, 55, 56 and 63. -/
theorem witness_active :
    active.fault = false ∧ active.lc = .active ∧ active.occ = 0 ∧ activeAbc.occ = 3 ∧
    ({ active with len := 440 } : State).occ = 55 ∧ ({ active with len := 448 } : State).occ = 56 ∧
    ({ active with len := 0xfffffffffffffff8 } : State).occ = 63 := by decide

/-- ChunkingInvariance and DigestOfMessage: byte strings at the length bound, and two partitions of one message. -/
theorem witness_chunks :
    ([] : List Byte).length + (List.replicate 16777215 (0 : Byte)).length ≤ 16777215 ∧
    [[0x61], [], [0x62, (0x63 : Byte)]].flatten = [[0x61, 0x62, (0x63 : Byte)]].flatten := by
  rw [List.length_replicate]; decide

/-- CommandsOnTheHeldMessage, StepKeepsMessageInvariant: an accumulator that holds no byte. -/
theorem witness_holds_empty : active.fault = false ∧ active.lc = .active ∧ active.Holds [] :=
  ⟨rfl, rfl, by decide +kernel, by decide +kernel, by decide +kernel⟩

/-- CommandsOnTheHeldMessage, StepKeepsMessageInvariant: an accumulator that holds "abc". -/
theorem witness_holds_abc : activeAbc.fault = false ∧ activeAbc.lc = .active ∧ activeAbc.Holds [0x61, 0x62, 0x63] :=
  ⟨rfl, rfl, by decide +kernel, by decide +kernel, by decide +kernel⟩

/-- StepKeepsMessageInvariant: a command at CP for it. -/
theorem witness_message_step :
    activeAbc.MessageInv ∧ (nextOf (step (activeAbc.supply [0x02, 1, 0, 0, 0x64]))).isSome = true ∧
    decode (activeAbc.supply [0x02, 1, 0, 0, 0x64]).pending = .command (.update [0x64]) [] :=
  ⟨fun _ => ⟨_, witness_holds_abc.2.2⟩, by decide +kernel, by decide +kernel⟩

/-- StepKeepsStateInvariant: the invariant holds at reset, in ACTIVE and in the halted state. -/
theorem witness_state_invariant : State.reset.Wf ∧ activeAbc.Wf ∧ halted.Wf :=
  ⟨⟨by decide, by decide, by decide, by decide⟩, ⟨by decide, by decide, by decide, by decide⟩,
    ⟨by decide, by decide, by decide, by decide⟩⟩

/-- ReachableStatesMeetInvariants: reset, a step from it, and a host action. -/
theorem witness_reachable :
    (State.reset.hostReset [0x00, 0, 0, 0]).Reachable ∧
    (State.enterFault { State.reset with cin := [0x00, 0, 0, 0] } .illegalOpcode).Reachable :=
  ⟨.reset _, .step (.reset [0x00, 0, 0, 0]) rfl⟩

/-- UndefinedValuesNeverMatter: ACTIVE states that differ in BUF[3..63], and states outside ACTIVE that differ in all
of A to D, BUF and L; a step and a stop of them. -/
theorem witness_agrees :
    activeAbc.Agrees { activeAbc with buf := blockOfBytes [0x61, 0x62, 0x63, 0xff] } ∧
    spent.Agrees { spent with chain := iv, buf := blockOf 7, len := 8 } ∧
    (nextOf (step (activeAbc.supply [0x03, 0, 0, 0]))).isSome = true ∧ faultOf (step spent) = some .streamEnd :=
  ⟨⟨rfl, rfl, rfl, rfl, rfl, rfl, fun _ => rfl, fun _ => rfl, fun _ => by decide +kernel⟩,
    ⟨rfl, rfl, rfl, rfl, rfl, rfl, (by intro h; cases h), (by intro h; cases h), (by intro h; cases h)⟩,
    by decide +kernel, by decide⟩

/-- CompressionFollowsSteps and Rotations: the ends of their ranges. -/
theorem witness_ranges : 0 < 48 ∧ 47 < 48 ∧ 1 ≤ 1 ∧ 1 ≤ 31 ∧ 31 ≤ 31 ∧ 31 < 32 := by decide

/-- ReverseOfOneBlockDigest: a block whose last word is 0, and messages of 0 and 55 bytes. -/
theorem witness_one_block :
    blockWord (blockOfBytes [0x80]) 15 = 0 ∧ ([] : List Byte).length ≤ 55 ∧ (List.replicate 55 (0x61 : Byte)).length ≤ 55 := by
  decide

/-- NoStepExactlyAtTheEnd and EveryRunEnds: a state at each end of a run, and one at none. -/
theorem witness_run_ends :
    halted.cp ≤ halted.cin.length ∧ halted.runEnd = some .faulted ∧ active.runEnd = some .complete ∧
    (active.supply [0x01]).runEnd = some .incomplete ∧ (active.supply [0x01, 0, 0, 0]).runEnd = none ∧
    (active.supply [0x01, 0, 0, 0]).cp ≤ (active.supply [0x01, 0, 0, 0]).cin.length := by decide

/-- InstancesShareNothing. -/
theorem witness_instances :
    stepInstance 1 [active, State.reset.supply [0x00, 0, 0, 0]] =
      some (.next [active, (State.reset.supply [0x00, 0, 0, 0]).enterFault .illegalOpcode]) := rfl

/-- PseudoInstructionExpansions: messages at the bound, and commands of the expansion at hand, with the state its
clauses on execution ask for. -/
theorem witness_expansion :
    (List.replicate 16777215 (0 : Byte)).length ≤ 16777215 ∧ Instr.init ∈ expandHash [0x61] ∧
    active.fault = false ∧ active.lc = .active := by
  rw [List.length_replicate]; decide

/-- One byte more than the limit goes as a full chunk and a chunk of one byte (30_encoding R68). -/
theorem splitChunks_one_above (limit : Nat) (b : Byte) (h : 0 < limit) :
    splitChunks limit (limit + 1) (List.replicate (limit + 1) b) = [List.replicate limit b, [b]] := by
  obtain ⟨k, rfl⟩ : ∃ k, limit = k + 1 := ⟨limit - 1, by omega⟩
  simp [splitChunks, List.take_replicate, List.drop_replicate]

/-- A message one byte above the bound goes as two UPDATEs (30_encoding R68). -/
theorem expandUpdate_one_above (b : Byte) :
    expandUpdate (List.replicate (maxUpdateLen + 1) b) = [.update (List.replicate maxUpdateLen b), .update [b]] := by
  rw [expandUpdate, List.length_replicate, splitChunks_one_above _ _ (by decide)]
  simp only [List.map]

/-- PseudoInstructionExpansions: a message one byte above the bound, and both its UPDATEs among the commands of its HASH
(log entry 10). -/
theorem witness_expansion_long :
    16777215 < (List.replicate (maxUpdateLen + 1) (0 : Byte)).length ∧
    Instr.update (List.replicate maxUpdateLen 0) ∈ expandHash (List.replicate (maxUpdateLen + 1) 0) ∧
    Instr.update [0] ∈ expandHash (List.replicate (maxUpdateLen + 1) 0) := by
  refine ⟨by rw [List.length_replicate]; decide, ?_, ?_⟩
  all_goals
    rw [expandHash, expandUpdate_one_above]
    simp only [List.mem_cons, List.mem_append, true_or, or_true]
/-- The model's choice of log entry 16: an exact multiple of the limit ends with a full chunk. -/
theorem test_split_exact_multiple :
    splitChunks 2 4 [1, 2, 3, 4] = [[1, 2], [3, 4]] ∧ splitChunks 2 5 [1, 2, 3, 4, 5] = [[1, 2], [3, 4], [5]] := by
  decide

/-- AssemblyExamples: 300 bytes. -/
theorem witness_assembly : (List.replicate 300 (0 : Byte)).length = 300 := List.length_replicate

end Sys2Proof.Tests
end

/-! What a command's effect does to the elements every statement about the step reads: CIN, CP, FAULT, ROUT and LC; and
the obligations about them (10_state). -/

namespace Sys2Proof.Machine

/-! The effect of a command, element by element. -/

@[simp] theorem effectOf_cin (i : Instr) (s : State) : (effectOf i s).cin = s.cin := by
  cases i <;> simp [effectOf]

@[simp] theorem effectOf_cp (i : Instr) (s : State) : (effectOf i s).cp = s.cp := by
  cases i <;> simp [effectOf]

@[simp] theorem effectOf_fault (i : Instr) (s : State) : (effectOf i s).fault = s.fault := by
  cases i <;> simp [effectOf]

/-- LC after a command that completes, from LC before it (10_state R27). -/
def lifecycleAfter : Instr → Lifecycle → Lifecycle
  | .init, _ => .active
  | .update _, lc => lc
  | .finalize, _ => .spent
  | .compress _ _, lc => lc
  | .reverse _, lc => lc
  | .unreverse _, lc => lc

@[simp] theorem effectOf_lc (i : Instr) (s : State) : (effectOf i s).lc = lifecycleAfter i s.lc := by
  cases i <;> simp [effectOf, lifecycleAfter]

@[simp] theorem length_chainBytes (st : Chain) : (chainBytes st).length = 16 := rfl

/-- A command's effect appends RESLEN bytes to ROUT (10_state R31, 30_encoding R56). -/
theorem exists_effectOf_rout_eq_append (i : Instr) (s : State) :
    ∃ out, (effectOf i s).rout = s.rout ++ out ∧ out.length = i.reslen := by
  cases i with
  | init => exact ⟨[], by simp [effectOf], rfl⟩
  | update data => exact ⟨[], by simp [effectOf], rfl⟩
  | finalize => exact ⟨_, s.finish.undefineAccumulator_rout.trans s.finish_rout, length_chainBytes _⟩
  | compress st blk => exact ⟨_, State.emit_rout s _, length_chainBytes _⟩
  | reverse st => exact ⟨_, State.emit_rout s _, length_chainBytes _⟩
  | unreverse st => exact ⟨_, State.emit_rout s _, length_chainBytes _⟩

/-- A command's length in CIN is that of its command word and its operand bytes (30_encoding R56). -/
theorem size_eq_four_add_length_operandBytes (i : Instr) : i.size = 4 + i.operandBytes.length := by
  cases i <;> simp [Instr.size, Instr.operandBytes]

/-- Inversion of `exec`: a lifecycle fault, or the command's effect with CP past it. -/
theorem exec_cases {i : Instr} {s t : State} (h : exec i s = .next t) :
    s.fault = false ∧
      ((∃ c, lifecycleFault i.opcode s.lc = some c ∧ t = s.enterFault c) ∨
        (lifecycleFault i.opcode s.lc = none ∧ t = (effectOf i s).advance i.size)) :=
  runCommand_cases (exec_eq_runCommand i s ▸ h)

/-- A FINALIZE that passes the lifecycle checks finds ACTIVE (60_exceptions R124, R125). -/
theorem active_of_finalize_allowed {lc : Lifecycle} (h : lifecycleFault .finalize lc = none) : lc = .active :=
  (lifecycleFault_none h).resolve_right fun hne => hne.2 rfl

/-! The fields of STATUS (10_state R29), and what a host action does to it. -/

@[simp] theorem State.status_lc_field (s : State) : s.status.extractLsb' 0 2 = s.lc.code :=
  BitVec.extractLsb'_append_eq_right

@[simp] theorem State.status_fault_bit (s : State) : s.status.getLsbD 2 = s.fault := by
  simp only [State.status, BitVec.getLsbD_append]
  simp

@[simp] theorem State.status_low_zeros (s : State) : s.status.extractLsb' 3 5 = 0 := by
  simp (disch := decide) only [State.status, BitVec.extractLsb'_append_eq_of_le]
  exact BitVec.extractLsb'_append_eq_right

@[simp] theorem State.status_cause_field (s : State) : s.status.extractLsb' 8 8 = s.cause.code := by
  simp (disch := decide) only [State.status, BitVec.extractLsb'_append_eq_of_le]
  exact BitVec.extractLsb'_append_eq_right

@[simp] theorem State.status_high_zeros (s : State) : s.status.extractLsb' 16 16 = 0 := by
  simp (disch := decide) only [State.status, BitVec.extractLsb'_append_eq_of_le]
  exact BitVec.extractLsb'_eq_self

/-- The encoding 3 of LC never occurs (10_state R27). -/
theorem Lifecycle.code_ne_three (lc : Lifecycle) : lc.code ≠ 3 := by
  cases lc <;> decide

/-- STATUS is derived from LC, FAULT and CAUSE alone (10_state R29). -/
theorem State.status_congr {s t : State} (hlc : s.lc = t.lc) (hfault : s.fault = t.fault)
    (hcause : s.cause = t.cause) : s.status = t.status := by
  rw [State.status, State.status, hlc, hfault, hcause]

@[simp] theorem State.status_supply (s : State) (bs : List Byte) : (s.supply bs).status = s.status :=
  State.status_congr rfl rfl rfl

/-- No host action but reset changes STATUS (10_state R29, 60_exceptions R129). -/
theorem applyHost_reset_or_status_eq (s : State) (act : HostAction) :
    (∃ cin, act = .reset cin) ∨ (applyHost act s).status = s.status := by
  cases act with
  | supply bs => exact .inr (s.status_supply bs)
  | reset cin => exact .inl ⟨cin, rfl⟩
  | readStatus => exact .inr rfl
  | readRout => exact .inr rfl

end Sys2Proof.Machine

namespace Sys2Proof.Proofs

open Sys2Proof Sys2Proof.Machine

/-- Settles O14: the two arms of `step_cases`, a fault entry and a command's effect with CP past it. -/
theorem commandPointerAndResultStream : Obligations.CommandPointerAndResultStream := by
  unfold Obligations.CommandPointerAndResultStream
  refine ⟨⟨rfl, rfl⟩, fun s t h => ?_⟩
  obtain ⟨hf, ⟨_, _, _, _, _, c, _, _, rfl⟩ | ⟨i, rest, hd, -, rfl⟩⟩ := step_cases h
  · exact ⟨rfl, .inl ⟨rfl, rfl, rfl⟩⟩
  · obtain ⟨out, hout, hlen⟩ := exists_effectOf_rout_eq_append i s
    exact ⟨by simp, .inr ⟨i, rest, out, hd, by simp [hf], by simp [size_eq_four_add_length_operandBytes], by simp [hout],
      hlen⟩⟩

/-- Settles O15: a fault leaves LC, and `lifecycleAfter` is LC after a command that completes. -/
theorem lifecycleMoves : Obligations.LifecycleMoves := by
  unfold Obligations.LifecycleMoves
  refine ⟨rfl, rfl, rfl, rfl, Lifecycle.code_ne_three, fun i s t h => ?_⟩
  obtain ⟨hf, ⟨c, -, rfl⟩ | ⟨hl, rfl⟩⟩ := exec_cases h
  · exact .inl ⟨rfl, rfl⟩
  · refine .inr ⟨by simp [hf], ?_⟩
    have hlc : ((effectOf i s).advance i.size).lc = lifecycleAfter i s.lc := by simp
    cases i with
    | finalize => exact ⟨active_of_finalize_allowed hl, hlc⟩
    | init | update | compress | reverse | unreverse => exact hlc

/-- Settles O2: field by field; the codes of LC and CAUSE are those the statement writes out. -/
theorem statusRegisterLayout : Obligations.StatusRegisterLayout := by
  unfold Obligations.StatusRegisterLayout
  refine ⟨fun s => ⟨?_, ?_, s.status_fault_bit, s.status_low_zeros, ?_, s.status_high_zeros, rfl⟩,
    fun s t => State.status_congr, applyHost_reset_or_status_eq, by decide⟩
  · rw [s.status_lc_field]
    cases s.lc <;> rfl
  · rw [s.status_lc_field]
    exact s.lc.code_ne_three
  · rw [s.status_cause_field]
    cases s.cause <;> rfl

end Sys2Proof.Proofs

/-! Waiting for the bytes of the next command (20_memory R49), and what UPDATE leaves in the accumulator (20_memory
R48, 41_accumulator R91): the lemmas about the fetch and the buffer, and the obligations about them. -/

namespace Sys2Proof.Machine

/-! The fetch, case by case. -/

/-- The decoder misses the command word exactly where fewer than its 4 bytes are there (20_memory R49). -/
theorem decode_missingWord_length {bs : List Byte} (h : decode bs = .missingWord) : bs.length < 4 := by
  unfold decode at h
  split at h
  · split at h
    · cases h
    · cases h
    · split at h <;> cases h
  · next hshort =>
    match bs, hshort with
    | [], _ | [_], _ | [_, _], _ | [_, _, _], _ => simp
    | _ :: _ :: _ :: _ :: _, hshort => exact absurd rfl (hshort _ _ _ _ _)

/-- Where operand bytes are missing, the command word is there and legal, so its checks are those on its opcode
(30_encoding R64). -/
theorem decode_missingOperands {bs : List Byte} {op : Opcode} (h : decode bs = .missingOperands op) :
    ∃ b0 b1 b2 b3 tail, bs = b0 :: b1 :: b2 :: b3 :: tail ∧
      ∀ lc, commandWordFault (le32 b0 b1 b2 b3) lc = lifecycleFault op lc := by
  unfold decode at h
  split at h
  · split at h
    · cases h
    · cases h
    · next hw =>
      split at h
      · cases h
        exact ⟨_, _, _, _, _, rfl, fun lc => by rw [commandWordFault, hw]⟩
      · cases h
  · cases h

/-- With fewer than 4 bytes at CP the engine stops: at the end of the stream, or inside a command word. -/
theorem fetch_of_short {s : State} (hf : s.fault = false) (h : s.pending.length < 4) :
    fetch s = .stop (if s.pending = [] then .streamEnd else .incomplete) := by
  simp only [fetch, hf]
  match s.pending, h with
  | [], _ | [_], _ | [_, _], _ | [_, _, _], _ => rfl
  | _ :: _ :: _ :: _ :: _, h => simp only [List.length_cons] at h; omega

/-- A command word that passes its checks and whose operand bytes are missing stops the engine (20_memory R49). -/
theorem fetch_of_missingOperands {s : State} {op : Opcode} (hf : s.fault = false)
    (hd : decode s.pending = .missingOperands op) (hl : lifecycleFault op s.lc = none) :
    fetch s = .stop .incomplete := by
  obtain ⟨b0, b1, b2, b3, tail, hp, hw⟩ := decode_missingOperands hd
  rw [hp] at hd
  simp [fetch, hf, hp, hw, hl, hd]

/-- A whole command at CP is run, unless its lifecycle check raises a fault (30_encoding R64). -/
theorem fetch_of_command {s : State} {i : Instr} {rest : List Byte} (hf : s.fault = false)
    (hd : decode s.pending = .command i rest) :
    fetch s = (lifecycleFault i.opcode s.lc).elim (.run i) .raise := by
  obtain ⟨b0, b1, b2, b3, p, op, n, hp, -⟩ := decode_command hd
  rw [hp] at hd
  simp only [fetch, hf, hp, commandWordFault_of_decode hd, hd]
  cases lifecycleFault i.opcode s.lc <;> rfl

/-- Where the bytes at CP decode to a command, the step is that command's execution (20_memory section 3): the checks of
the fetch and those of the command agree. -/
theorem step_eq_exec_of_decode {s : State} {i : Instr} {rest : List Byte}
    (hd : decode s.pending = .command i rest) : step s = exec i s := by
  rw [exec_eq_runCommand]
  cases hf : s.fault with
  | true => simp [step, fetch, hf, runCommand_halted hf]
  | false =>
    cases hl : lifecycleFault i.opcode s.lc with
    | some c => simp [step, fetch_of_command hf hd, hl, runCommand_fault hf hl]
    | none => simp [step, fetch_of_command hf hd, hl, exec_eq_runCommand]

/-- A command that needs bytes stops the step, at the end of the stream or inside the command (20_memory R49). -/
theorem step_of_needsBytes {s : State} (hf : s.fault = false) (hn : s.needsBytes = true) :
    step s = .fault (if s.pending = [] then .streamEnd else .incomplete) := by
  unfold State.needsBytes at hn
  split at hn
  · next hd => simp only [step, fetch_of_short hf (decode_missingWord_length hd)]
  · next op hd =>
    obtain ⟨b0, b1, b2, b3, tail, hp, -⟩ := decode_missingOperands hd
    simp [step, fetch_of_missingOperands hf hd (Option.isNone_iff_eq_none.mp hn), hp]
  all_goals cases hn

/-- With CP inside CIN, the host's bytes follow those already pending (20_memory R41). -/
theorem State.pending_supply {s : State} (h : s.cp ≤ s.cin.length) (bs : List Byte) :
    (s.supply bs).pending = s.pending ++ bs :=
  List.drop_append_of_le_length h

/-! The buffer's valid bytes. -/

@[simp] theorem length_blocksOf (bs : List Byte) : (blocksOf bs).length = bs.length / 64 := by
  simp [blocksOf]

/-- BUF holds OCC valid bytes (10_state R26). -/
theorem State.length_valid_bytes (s : State) : (s.buf.toList.take s.occ).length = s.occ := by
  have : s.occ < 64 := occOf_lt s.len
  simp; omega

/-- UPDATE completes in ACTIVE, with its effect and CP past it (41_accumulator R91). -/
theorem exec_update_of_active (data : List Byte) {s : State} (hf : s.fault = false) (hlc : s.lc = .active) :
    exec (.update data) s = .next ((s.absorb data).advance (4 + data.length)) :=
  runCommand_next (i := .update data) (f := (·.absorb data)) hf (by rw [hlc]; rfl)

end Sys2Proof.Machine

namespace Sys2Proof.Proofs

open Sys2Proof Sys2Proof.Machine

/-- Settles O13: the wait is `step_of_needsBytes`; the supplied bytes end what is pending, and a whole command runs. -/
theorem missingBytesAreWaitedFor : Obligations.MissingBytesAreWaitedFor := by
  unfold Obligations.MissingBytesAreWaitedFor
  intro s hf hn
  refine ⟨step_of_needsBytes hf hn, fun bs i rest hcp hd => ?_⟩
  rw [← State.pending_supply hcp] at hd
  exact step_eq_exec_of_decode hd

/-- Settles O17: the effect is `absorb_eq`, and `absorb_eq_setAccumulator` gives its frame. -/
theorem updateEffect : Obligations.UpdateEffect := by
  unfold Obligations.UpdateEffect
  intro data s hf hlc
  obtain ⟨hchain, hlen, hocc, hbuf⟩ := absorb_eq s data
  refine ⟨_, exec_update_of_active data hf hlc, hchain, ?_, hocc, ?_, hlen, by simp, ?_⟩
  · rw [length_blocksOf, List.length_append, State.length_valid_bytes]
  · rw [State.advance_buf, State.advance_occ, hocc]
    exact hbuf
  · rw [absorb_eq_setAccumulator]
    rfl

end Sys2Proof.Proofs

/-! What the engine does with a command word (30_encoding R64, 60_exceptions R122, R123): the word's fields as its bytes
give them, what the decoder answers for each kind of word, and the obligation about the checks. -/

namespace Sys2Proof.Machine

/-! The fields of a word assembled from its bytes. -/

@[simp] theorem wordOpc_le32 (b0 b1 b2 b3 : Byte) : wordOpc (le32 b0 b1 b2 b3) = b0 :=
  (List.cons.inj (bytes32_le32 b0 b1 b2 b3)).1

@[simp] theorem toNat_wordArg_le32 (b0 b1 b2 b3 : Byte) :
    (wordArg (le32 b0 b1 b2 b3)).toNat = b1.toNat + 256 * b2.toNat + 65536 * b3.toNat := by
  rw [wordArg, BitVec.extractLsb'_toNat, le32_toNat, Nat.shiftRight_eq_div_pow]
  omega

/-! The opcodes among the byte values. -/

/-- The values not listed are reserved (30_encoding R63). -/
theorem opcodeOf_eq_none {v : Byte} (h : v = 0 ∨ 7 ≤ v.toNat) : opcodeOf v = none := by
  cases hop : opcodeOf v with
  | none => rfl
  | some op =>
    rw [code_of_opcodeOf hop] at h
    cases op <;> exact absurd h (by decide)

/-- Every value from 1 to 6 is an opcode's (30_encoding R58). -/
theorem exists_eq_code {v : Byte} (h : ¬(v = 0 ∨ 7 ≤ v.toNat)) : ∃ op : Opcode, v = op.code := by
  have hv : v = 1 ∨ v = 2 ∨ v = 3 ∨ v = 4 ∨ v = 5 ∨ v = 6 := by bv_omega
  obtain rfl | rfl | rfl | rfl | rfl | rfl := hv
  · exact ⟨.init, rfl⟩
  · exact ⟨.update, rfl⟩
  · exact ⟨.finalize, rfl⟩
  · exact ⟨.compress, rfl⟩
  · exact ⟨.reverse, rfl⟩
  · exact ⟨.unreverse, rfl⟩

theorem code_eq_two_iff (op : Opcode) : op.code = 2 ↔ op = .update := by cases op <;> decide

/-- OPLEN by the opcode's value (30_encoding R56). -/
theorem oplenOf_eq_ite_code (op : Opcode) (arg : BitVec 24) :
    oplenOf op arg = if op.code = 2 then arg.toNat else if op.code = 4 then 80
      else if op.code = 5 ∨ op.code = 6 then 16 else 0 := by
  cases op <;> rfl

/-! The checks on the word and LC. -/

theorem decodeWord_illegalOpcode {b0 : Byte} (h : b0 = 0 ∨ 7 ≤ b0.toNat) (b1 b2 b3 : Byte) :
    decodeWord (le32 b0 b1 b2 b3) = .illegalOpcode := by
  simp [decodeWord, opcodeOf_eq_none h]

/-- A word with a listed opcode has a reserved field or is legal, by its ARG (30_encoding R60). -/
theorem decodeWord_le32_code (op : Opcode) (b1 b2 b3 : Byte) :
    decodeWord (le32 op.code b1 b2 b3) =
      if op.code ≠ 2 ∧ b1.toNat + 256 * b2.toNat + 65536 * b3.toNat ≠ 0 then .reservedField
      else .legal op (oplenOf op (wordArg (le32 op.code b1 b2 b3))) := by
  have harg : wordArg (le32 op.code b1 b2 b3) ≠ 0 ↔ b1.toNat + 256 * b2.toNat + 65536 * b3.toNat ≠ 0 := by
    rw [← toNat_wordArg_le32 op.code, Ne, ← BitVec.toNat_inj]
    rfl
  simp only [decodeWord, wordOpc_le32, opcodeOf_code, harg, Ne, code_eq_two_iff]

/-- The lifecycle checks by the opcode's value (30_encoding R64). -/
theorem lifecycleFault_eq_ite_code (op : Opcode) (lc : Lifecycle) :
    lifecycleFault op lc = if (op.code = 2 ∨ op.code = 3) ∧ lc = .uninit then some .notInitialised
      else if (op.code = 2 ∨ op.code = 3) ∧ lc = .spent then some .accumulatorSpent else none := by
  cases op <;> cases lc <;> rfl

/-! The decoder and the step on a word that is there. -/

/-- A legal word whose operand bytes are missing (20_memory R49). -/
theorem decode_of_legal_short {b0 b1 b2 b3 : Byte} {rest : List Byte} {op : Opcode} {n : Nat}
    (hw : decodeWord (le32 b0 b1 b2 b3) = .legal op n) (h : rest.length < n) :
    decode (b0 :: b1 :: b2 :: b3 :: rest) = .missingOperands op := by
  simp [decode, hw, h]

/-- A legal word with its operand bytes is a command, and the bytes after it are left (30_encoding R56). -/
theorem decode_of_legal {b0 b1 b2 b3 : Byte} {rest : List Byte} {op : Opcode} {n : Nat}
    (hw : decodeWord (le32 b0 b1 b2 b3) = .legal op n) (h : ¬rest.length < n) :
    decode (b0 :: b1 :: b2 :: b3 :: rest) = .command (buildCommand op (rest.take n)) (rest.drop n) := by
  simp [decode, hw, h]

/-- A fault of the command word is taken whatever follows the word (30_encoding R64). -/
theorem step_of_commandWordFault {s : State} {b0 b1 b2 b3 : Byte} {rest : List Byte} {c : Cause}
    (hf : s.fault = false) (hp : s.pending = b0 :: b1 :: b2 :: b3 :: rest)
    (hc : commandWordFault (le32 b0 b1 b2 b3) s.lc = some c) : step s = .next (s.enterFault c) := by
  simp [step, fetch, hf, hp, hc]

@[simp] theorem opcode_buildCommand (op : Opcode) (p : List Byte) : (buildCommand op p).opcode = op := by
  cases op <;> rfl

end Sys2Proof.Machine

namespace Sys2Proof.Proofs

open Sys2Proof Sys2Proof.Machine

/-- Settles O8: the checks in their order; past the first, the opcode is a listed one, and past the second the word is
legal, with `oplenOf` as its OPLEN. -/
theorem commandWordChecks : Obligations.CommandWordChecks := by
  unfold Obligations.CommandWordChecks
  intro s b0 b1 b2 b3 rest hf hp arg oplen
  by_cases hopc : b0 = 0 ∨ 7 ≤ b0.toNat
  · rw [if_pos hopc]
    exact step_of_commandWordFault hf hp (by rw [commandWordFault, decodeWord_illegalOpcode hopc])
  rw [if_neg hopc]
  obtain ⟨op, rfl⟩ := exists_eq_code hopc
  have hword := decodeWord_le32_code op b1 b2 b3
  by_cases hres : op.code ≠ 2 ∧ arg ≠ 0
  · rw [if_pos hres] at hword ⊢
    exact step_of_commandWordFault hf hp (by rw [commandWordFault, hword])
  rw [if_neg hres] at hword ⊢
  have hoplen : oplenOf op (wordArg (le32 op.code b1 b2 b3)) = oplen := by
    rw [oplenOf_eq_ite_code, toNat_wordArg_le32]
  rw [hoplen] at hword
  have hcheck : commandWordFault (le32 op.code b1 b2 b3) s.lc = lifecycleFault op s.lc := by
    rw [commandWordFault, hword]
  have hlife := lifecycleFault_eq_ite_code op s.lc
  split_ifs at hlife ⊢ with huninit hspent hshort
  · exact step_of_commandWordFault hf hp (hcheck.trans hlife)
  · exact step_of_commandWordFault hf hp (hcheck.trans hlife)
  · have hd : decode s.pending = .missingOperands op := hp ▸ decode_of_legal_short hword hshort
    rw [step, fetch_of_missingOperands hf hd hlife]
  · have hd : decode s.pending = .command (buildCommand op (rest.take oplen)) (rest.drop oplen) :=
      hp ▸ decode_of_legal hword hshort
    exact ⟨_, hd, by rw [opcode_buildCommand], step_eq_exec_of_decode hd⟩

end Sys2Proof.Proofs

/-! The schedule against the table of the spec (40_compression R79), round by round, and the compression's 48 steps
(40_compression R75, R80, R81): the lemmas, and the obligations about them. -/

namespace Sys2Proof.Machine

/-! The rows the rules for roles, word order, rotations and constants give, sixteen of each round. -/

theorem map_scheduleRow_round1 : (List.range' 0 16).map scheduleRow = tableRound1 := by decide

theorem map_scheduleRow_round2 : (List.range' 16 16).map scheduleRow = tableRound2 := by decide

theorem map_scheduleRow_round3 : (List.range' 32 16).map scheduleRow = tableRound3 := by decide

/-- The schedule is the three rounds of the table in order (40_compression R79). -/
theorem schedule_eq_tables : schedule = tableRound1 ++ tableRound2 ++ tableRound3 := by
  have hrange : List.range 48 = List.range' 0 16 ++ List.range' 16 16 ++ List.range' 32 16 := by
    rw [List.range_eq_range', List.range'_append_1, List.range'_append_1]
  rw [schedule, hrange, List.map_append, List.map_append, map_scheduleRow_round1, map_scheduleRow_round2,
    map_scheduleRow_round3]

/-- The row of the table that step `j` uses (40_compression R79). -/
theorem tables_getElem? {j : Nat} (h : j < 48) :
    (tableRound1 ++ tableRound2 ++ tableRound3)[j]? = some (scheduleRow j) := by
  have hlen : j < schedule.length := by rwa [schedule_length]
  rw [← schedule_eq_tables, List.getElem?_eq_getElem hlen, schedule_getElem]

end Sys2Proof.Machine

namespace Sys2Proof.Proofs

open Sys2Proof Sys2Proof.Machine

/-- Settles O29: each round's sixteen rows are the table's, and the schedule is the three rounds. -/
theorem scheduleMatchesTable : Obligations.ScheduleMatchesTable := schedule_eq_tables

/-- Settles O30: `le32_toNat` gives the words as numbers; a step's row is the table's by `tables_getElem?`, its operands
by `scheduleRow_operands_ne`, its effect by `workingAfter_succ`; the feed-forward is `addChain`. -/
theorem compressionFollowsSteps : Obligations.CompressionFollowsSteps := by
  unfold Obligations.CompressionFollowsSteps
  refine fun st blk => ⟨fun i => ⟨rfl, le32_toNat _ _ _ _⟩, rfl, fun j hj => ?_, rfl⟩
  obtain ⟨hu, hv, hw⟩ := scheduleRow_operands_ne j
  exact ⟨tables_getElem? hj, hu, hv, hw, workingAfter_succ st blk j hj⟩

end Sys2Proof.Proofs

/-! The bit counter modulo 2^64 (41_accumulator R92): its value as a number, and the obligation about it. -/

namespace Sys2Proof.Machine

/-- UPDATE adds 8 for each byte to the value of L, modulo 2^64 (41_accumulator R92). -/
theorem toNat_absorb_len (s : State) (data : List Byte) :
    (s.absorb data).len.toNat = (s.len.toNat + 8 * data.length) % 2 ^ 64 := by
  obtain ⟨-, hlen, -, -⟩ := absorb_eq s data
  rw [hlen, BitVec.toNat_add, BitVec.toNat_ofNat, Nat.add_mod_mod]

end Sys2Proof.Machine

namespace Sys2Proof.Proofs

open Sys2Proof Sys2Proof.Machine

/-- Settles O18: L is `toNat_absorb_len` and OCC is in `absorb_eq`; at the wrap L reaches 2^64 and OCC, 63 before it,
reaches 64. -/
theorem updateCountsBits : Obligations.UpdateCountsBits := by
  unfold Obligations.UpdateCountsBits
  have hcount : ∀ (data : List Byte) (s : State), s.fault = false → s.lc = .active →
      ∃ t, exec (.update data) s = .next t ∧ t.fault = false ∧
        t.len.toNat = (s.len.toNat + 8 * data.length) % 2 ^ 64 ∧ t.occ = (s.occ + data.length) % 64 := by
    intro data s hf hlc
    obtain ⟨-, -, hocc, -⟩ := absorb_eq s data
    exact ⟨_, exec_update_of_active data hf hlc, by simp [hf], by simpa using toNat_absorb_len s data,
      by simpa using hocc⟩
  refine ⟨hcount, fun s hf hlc hwrap => ?_⟩
  obtain ⟨t, hexec, -, hlen, hocc⟩ := hcount [0x00] s hf hlc
  have hocc63 : s.occ = 63 := by rw [State.occ, hwrap]; rfl
  rw [hwrap] at hlen
  rw [hocc63] at hocc
  exact ⟨t, hexec, BitVec.eq_of_toNat_eq hlen, hocc⟩

end Sys2Proof.Proofs

/-! Fault entry and the halted engine (60_exceptions R124 to R129): the rules for a lifecycle fault and for a halted
engine, and the obligations about them. -/

namespace Sys2Proof.Machine

/-! A lifecycle fault. -/

/-- A lifecycle fault of a command is taken with no other effect (60_exceptions R127). -/
theorem exec_of_lifecycleFault {i : Instr} {s : State} {c : Cause} (hf : s.fault = false)
    (hl : lifecycleFault i.opcode s.lc = some c) : exec i s = .next (s.enterFault c) := by
  rw [exec_eq_runCommand, runCommand_fault hf hl]

/-- UPDATE and FINALIZE are not initialised in UNINIT (60_exceptions R124). -/
theorem lifecycleFault_uninit {op : Opcode} (h : op = .update ∨ op = .finalize) :
    lifecycleFault op .uninit = some .notInitialised := by
  obtain rfl | rfl := h <;> rfl

/-- UPDATE and FINALIZE find the accumulator spent in SPENT (60_exceptions R125). -/
theorem lifecycleFault_spent {op : Opcode} (h : op = .update ∨ op = .finalize) :
    lifecycleFault op .spent = some .accumulatorSpent := by
  obtain rfl | rfl := h <;> rfl

/-- A lifecycle fault never has the cause 0x00. -/
theorem lifecycleFault_ne_none {op : Opcode} {lc : Lifecycle} {c : Cause} (h : lifecycleFault op lc = some c) :
    c ≠ .none := by
  obtain ⟨-, ⟨-, rfl⟩ | ⟨-, rfl⟩⟩ := lifecycleFault_some h <;> simp

/-! A command that runs to its effect raises no fault. -/

/-- From a state with FAULT 0, a command's effect with CP past it does not end with FAULT 1. -/
theorem effectOf_advance_fault_ne_true (i : Instr) {s : State} (hf : s.fault = false) :
    ((effectOf i s).advance i.size).fault ≠ true := by
  simp [hf]

/-! The halted engine (60_exceptions R128). -/

theorem exec_halted {s : State} (hf : s.fault = true) (i : Instr) : exec i s = .fault (.halted s.cause) := by
  rw [exec_eq_runCommand, runCommand_halted hf]

theorem step_halted {s : State} (hf : s.fault = true) : step s = .fault (.halted s.cause) := by
  simp [step, fetch, hf]

theorem State.runEnd_halted {s : State} (hf : s.fault = true) : s.runEnd = some .faulted := by
  simp [State.runEnd, hf]

end Sys2Proof.Machine

namespace Sys2Proof.Proofs

open Sys2Proof Sys2Proof.Machine

/-- Settles O11: a step or an execution that ends with FAULT 1 is the fault arm of its inversion, since the other arm
keeps FAULT at 0; the fault arm is `enterFault` with the cause of the check that failed. -/
theorem faultEntryIsPrecise : Obligations.FaultEntryIsPrecise := by
  unfold Obligations.FaultEntryIsPrecise
  refine ⟨fun s t h ht => ?_, fun i s t h ht => ?_⟩
  · obtain ⟨hf, ⟨b0, b1, b2, b3, rest, c, hp, hc, rfl⟩ | ⟨i, _, -, -, rfl⟩⟩ := step_cases h
    · exact ⟨hf, commandWordFault_ne_none hc, rfl, b0, b1, b2, b3, rest, hp, hc⟩
    · exact absurd ht (effectOf_advance_fault_ne_true i hf)
  · obtain ⟨hf, ⟨c, hl, rfl⟩ | ⟨-, rfl⟩⟩ := exec_cases h
    · exact ⟨lifecycleFault_ne_none hl, rfl⟩
    · exact absurd ht (effectOf_advance_fault_ne_true i hf)

/-- Settles O10: the lifecycle check of UPDATE and FINALIZE fails in UNINIT and in SPENT, and its fault is all that is
taken. -/
theorem lifecycleFaults : Obligations.LifecycleFaults := by
  unfold Obligations.LifecycleFaults
  refine fun i s hf hop => ⟨fun hlc => ?_, fun hlc => ?_⟩
  · exact exec_of_lifecycleFault hf (hlc ▸ lifecycleFault_uninit hop)
  · exact exec_of_lifecycleFault hf (hlc ▸ lifecycleFault_spent hop)

/-- Settles O12: more bytes leave the engine halted, so the rules of a halted engine answer the first four clauses; of
the host's actions, reset takes the second arm of the last clause and every other one the first. -/
theorem haltedUntilReset : Obligations.HaltedUntilReset := by
  unfold Obligations.HaltedUntilReset
  intro s hf
  refine ⟨step_halted hf, exec_halted hf, fun bs => step_halted (s := s.supply bs) hf, State.runEnd_halted hf,
    fun act => ?_⟩
  cases act with
  | supply bs => exact .inl ⟨hf, rfl, s.status_supply bs⟩
  | reset cin => exact .inr ⟨cin, rfl, rfl, rfl, rfl⟩
  | readStatus => exact .inl ⟨hf, rfl, rfl⟩
  | readRout => exact .inl ⟨hf, rfl, rfl⟩

end Sys2Proof.Proofs

/-! How a run ends (70_reset_and_hazards R150): where the run has not ended the engine takes a step, a step that raises no
fault passes at least the 4 bytes of a command word, and so a run on a finite CIN ends. -/

namespace Sys2Proof.Machine

/-! The engine steps wherever the command at CP needs no more bytes. -/

/-- Where the decoder refuses the command word, the word is there and its checks fail in every lifecycle
(30_encoding R64). -/
theorem decode_refused {bs : List Byte} (h : decode bs = .illegalOpcode ∨ decode bs = .reservedField) :
    ∃ b0 b1 b2 b3 tail, bs = b0 :: b1 :: b2 :: b3 :: tail ∧
      ∀ lc, ∃ c, commandWordFault (le32 b0 b1 b2 b3) lc = some c := by
  unfold decode at h
  split at h
  · refine ⟨_, _, _, _, _, rfl, fun lc => ?_⟩
    split at h
    · next hw => exact ⟨.illegalOpcode, by rw [commandWordFault, hw]⟩
    · next hw => exact ⟨.reservedField, by rw [commandWordFault, hw]⟩
    · split at h <;> simp at h
  · simp at h

/-- A refused command word is a step: its fault is raised. -/
theorem exists_step_of_decode_refused {s : State} (hf : s.fault = false)
    (h : decode s.pending = .illegalOpcode ∨ decode s.pending = .reservedField) : ∃ t, step s = .next t := by
  obtain ⟨b0, b1, b2, b3, tail, hp, hw⟩ := decode_refused h
  obtain ⟨c, hc⟩ := hw s.lc
  exact ⟨_, step_of_commandWordFault hf hp hc⟩

/-- A command runs to a next state unless the engine is halted. -/
theorem exists_exec_eq_next (i : Instr) {s : State} (hf : s.fault = false) : ∃ t, exec i s = .next t := by
  cases hl : lifecycleFault i.opcode s.lc with
  | none => exact ⟨_, (exec_eq_runCommand i s).trans (runCommand_next hf hl)⟩
  | some c => exact ⟨_, exec_of_lifecycleFault hf hl⟩

/-- An engine that is not halted takes a step where the command at CP needs no more bytes: it raises the fault of the
command word, or executes the whole command (20_memory R49). -/
theorem exists_step_eq_next {s : State} (hf : s.fault = false) (hn : s.needsBytes = false) :
    ∃ t, step s = .next t := by
  unfold State.needsBytes at hn
  split at hn
  · cases hn
  · next op hd =>
    obtain ⟨b0, b1, b2, b3, tail, hp, hw⟩ := decode_missingOperands hd
    obtain ⟨c, hl⟩ := Option.isSome_iff_exists.mp (Option.isNone_eq_false_iff.mp hn)
    exact ⟨_, step_of_commandWordFault hf hp ((hw s.lc).trans hl)⟩
  · next i rest hd => exact step_eq_exec_of_decode hd ▸ exists_exec_eq_next i hf
  · next hd => exact exists_step_of_decode_refused hf (.inl hd)
  · next hd => exact exists_step_of_decode_refused hf (.inr hd)

/-- A run has not ended exactly where no rule of R150 names its end. -/
theorem State.runEnd_eq_none_iff (s : State) :
    s.runEnd = none ↔
      s.fault = false ∧ s.cp ≠ s.cin.length ∧ (s.cp < s.cin.length → s.needsBytes = false) := by
  unfold State.runEnd
  split_ifs <;> simp_all

/-- With CP inside CIN, a run that has not ended goes on (70_reset_and_hazards R150). -/
theorem exists_step_of_runEnd_eq_none {s : State} (hcp : s.cp ≤ s.cin.length) (h : s.runEnd = none) :
    ∃ t, step s = .next t := by
  obtain ⟨hf, hne, hneeds⟩ := s.runEnd_eq_none_iff.mp h
  exact exists_step_eq_next hf (hneeds (by omega))

/-! What a step does to the bytes left. -/

theorem step_cin {s t : State} (h : step s = .next t) : t.cin = s.cin := by
  obtain ⟨-, ⟨_, _, _, _, _, c, -, -, rfl⟩ | ⟨i, rest, -, -, rfl⟩⟩ := step_cases h <;> simp

/-- With CP inside CIN, a step halts the engine or moves CP past at least a command word, and never out of CIN
(20_memory R49, 30_encoding R56). -/
theorem step_halts_or_passes_word {s t : State} (hcp : s.cp ≤ s.cin.length) (h : step s = .next t) :
    t.fault = true ∨ (s.cp + 4 ≤ t.cp ∧ t.cp ≤ s.cin.length) := by
  obtain ⟨-, ⟨_, _, _, _, _, c, -, -, rfl⟩ | ⟨i, rest, hd, -, rfl⟩⟩ := step_cases h
  · exact .inl rfl
  · have hpending : s.pending.length = i.size + rest.length := decode_command_size hd
    have hword : i.size = 4 + i.operandBytes.length := size_eq_four_add_length_operandBytes i
    rw [State.pending, List.length_drop] at hpending
    simp only [State.advance_cp, effectOf_cp]
    omega

/-! Runs. -/

theorem run_succ_of_step {s t : State} (h : step s = .next t) (k : Nat) :
    Host.Core.run Sys2Proof.core (k + 1) s = Host.Core.run Sys2Proof.core k t := by
  have hcore : Sys2Proof.core.step s = .next t := h
  simp only [Host.Core.run, hcore]

/-- With fewer than `4 * n` bytes left in CIN, the run ends within `n` steps. -/
theorem exists_run_to_end (n : Nat) : ∀ s : State, s.cp ≤ s.cin.length → s.cin.length - s.cp < 4 * n →
    ∃ k t, k ≤ n ∧ Host.Core.run Sys2Proof.core k s = .next t ∧ t.runEnd ≠ none ∧ t.cin = s.cin := by
  induction n with
  | zero => intro s _ hleft; omega
  | succ n ih =>
    intro s hcp hleft
    by_cases hend : s.runEnd = none
    · obtain ⟨t, hstep⟩ := exists_step_of_runEnd_eq_none hcp hend
      have hcin : t.cin = s.cin := step_cin hstep
      obtain hhalt | ⟨hpass, hcp'⟩ := step_halts_or_passes_word hcp hstep
      · exact ⟨1, t, by omega, run_succ_of_step hstep 0, by simp [State.runEnd_halted hhalt], hcin⟩
      · obtain ⟨k, u, hk, hrun, hu, hcin'⟩ := ih t (by rwa [hcin]) (by rw [hcin]; omega)
        exact ⟨k + 1, u, by omega, (run_succ_of_step hstep k).trans hrun, hu, hcin'.trans hcin⟩
    · exact ⟨0, s, by omega, rfl, hend, rfl⟩

end Sys2Proof.Machine

namespace Sys2Proof.Proofs

open Sys2Proof Sys2Proof.Machine

/-- Settles O40: `exists_run_to_end`, with one more step than there are whole words left. -/
theorem everyRunEnds : Obligations.EveryRunEnds := by
  unfold Obligations.EveryRunEnds
  exact fun s hcp => exists_run_to_end ((s.cin.length - s.cp) / 4 + 1) s hcp (by omega)

end Sys2Proof.Proofs

/-! The encoding (30_encoding sections 1 to 4): a command word and its operand bytes both ways, the two refusals, and the
obligations about the decoder. -/

namespace Sys2Proof.Machine

/-! From a command to its bytes and back. -/

/-- The encoder's ARG is 0 unless the command is UPDATE (30_encoding R57). -/
theorem arg_eq_zero_of_ne_update {i : Instr} (h : i.opcode ≠ .update) : i.arg = 0 := by
  cases i with
  | update data => exact absurd rfl h
  | init | finalize | compress | reverse | unreverse => rfl

/-- The encoder's ARG gives as OPLEN the operand bytes it lays down; UPDATE's LEN fits 24 bits (30_encoding R56, R59). -/
theorem oplenOf_arg {i : Instr} (h : i.WellFormed) : oplenOf i.opcode i.arg = i.operandBytes.length := by
  cases i with
  | update data =>
    have hlen : data.length ≤ 16777215 := of_decide_eq_true h
    simp only [oplenOf, Instr.opcode, Instr.arg, Instr.operandBytes, BitVec.toNat_ofNat]
    omega
  | compress st blk => simp [oplenOf, Instr.opcode, Instr.operandBytes]
  | init | finalize | reverse | unreverse => rfl

/-- The encoder's command word is legal, with the command's opcode and its operand bytes as OPLEN. -/
theorem decodeWord_commandWord {i : Instr} (h : i.WellFormed) :
    decodeWord i.commandWord = .legal i.opcode i.operandBytes.length := by
  have hres : ¬(i.opcode ≠ .update ∧ i.arg ≠ 0) := fun hne => hne.2 (arg_eq_zero_of_ne_update hne.1)
  simp only [decodeWord, Instr.commandWord, wordOpc_append, opcodeOf_code, wordArg_append, if_neg hres, oplenOf_arg h]

/-- A command is built back from its opcode and its operand bytes (30_encoding R61). -/
theorem buildCommand_operandBytes (i : Instr) : buildCommand i.opcode i.operandBytes = i := by
  cases i with
  | compress st blk =>
    have hblk : (chainBytes st ++ blk.toList).drop 16 = blk.toList ++ [] :=
      (List.drop_left' (length_chainBytes st)).trans (List.append_nil _).symm
    simp only [buildCommand, Instr.opcode, Instr.operandBytes, chainOfBytes_chainBytes, hblk, blockOfBytes_toList]
  | reverse st | unreverse st =>
    have hst : chainOfBytes (chainBytes st) = st := by simpa using chainOfBytes_chainBytes st []
    simp only [buildCommand, Instr.opcode, Instr.operandBytes, hst]
  | init | update | finalize => rfl

/-- A command's encoding decodes to it, and the bytes after it are left. -/
theorem decode_encode_append {i : Instr} (h : i.WellFormed) (rest : List Byte) :
    decode (encode i ++ rest) = .command i rest := by
  have hword := decodeWord_commandWord h
  rw [← le32_bytes32 i.commandWord] at hword
  have hd := decode_of_legal (rest := i.operandBytes ++ rest) hword (by simp)
  rw [List.take_left, List.drop_left, buildCommand_operandBytes] at hd
  exact hd

/-! From the bytes to a command and back. -/

/-- The operand bytes of a word, from the word read out of them. -/
theorem bytes32_operandWord {p : List Byte} {k : Nat} (h : k + 4 ≤ p.length) :
    bytes32 (operandWord p k) = (p.drop k).take 4 := by
  rw [operandWord, bytes32_le32]
  apply List.ext_getElem
  · simp; omega
  · intro i hi _
    have hi4 : i < 4 := by simpa using hi
    rcases i with _ | _ | _ | _ | i <;>
      simp [operandByte, List.getD_eq_getElem?_getD, show k < p.length by omega, show k + 1 < p.length by omega,
        show k + 2 < p.length by omega, show k + 3 < p.length by omega]
    omega

/-- The bytes of the state read out of an operand are the operand's first 16 bytes (30_encoding R61). -/
theorem chainBytes_chainOfBytes {p : List Byte} (h : 16 ≤ p.length) : chainBytes (chainOfBytes p) = p.take 16 := by
  simp only [chainBytes, chainOfBytes]
  rw [bytes32_operandWord (by omega), bytes32_operandWord (by omega), bytes32_operandWord (by omega),
    bytes32_operandWord (by omega), List.drop_zero, ← List.take_add, ← List.take_add, ← List.take_add]

/-- The operand bytes of a command built from exactly OPLEN bytes are those bytes. -/
theorem operandBytes_buildCommand {op : Opcode} {arg : BitVec 24} {p : List Byte} (h : p.length = oplenOf op arg) :
    (buildCommand op p).operandBytes = p := by
  cases op with
  | init | finalize => exact (List.eq_nil_of_length_eq_zero h).symm
  | update => rfl
  | compress =>
    have h80 : p.length = 80 := h
    simp only [buildCommand, Instr.operandBytes]
    rw [chainBytes_chainOfBytes (by omega), toList_blockOfBytes _ (by rw [List.length_drop]; omega),
      List.take_of_length_le (l := p.drop 16) (by rw [List.length_drop]; omega), List.take_append_drop]
  | reverse | unreverse =>
    have h16 : p.length = 16 := h
    simp only [buildCommand, Instr.operandBytes]
    rw [chainBytes_chainOfBytes (by omega), List.take_of_length_le (by omega)]

/-- A command built from OPLEN operand bytes is one the encoding can spell (30_encoding R59). -/
theorem wellFormed_buildCommand {op : Opcode} {arg : BitVec 24} {p : List Byte} (h : p.length = oplenOf op arg) :
    (buildCommand op p).WellFormed := by
  cases op with
  | update =>
    have hlen : p.length = arg.toNat := h
    have hlt := arg.isLt
    exact decide_eq_true (show p.length ≤ 16777215 by omega)
  | init | finalize | compress | reverse | unreverse => rfl

/-- The encoder gives a built command the word it was decoded from. -/
theorem commandWord_buildCommand {w : Word} {op : Opcode} {n : Nat} {p : List Byte} (hw : decodeWord w = .legal op n)
    (hp : p.length = n) : (buildCommand op p).commandWord = w := by
  obtain ⟨hopc, harg, hn⟩ := decodeWord_legal hw
  have hargs : (buildCommand op p).arg = wordArg w := by
    by_cases hop : op = .update
    · subst hop
      have hlen : p.length = (wordArg w).toNat := hp.trans hn
      simp only [buildCommand, Instr.arg, hlen, BitVec.ofNat_toNat, BitVec.setWidth_eq]
    · rw [harg.resolve_left hop]
      exact arg_eq_zero_of_ne_update (by rwa [opcode_buildCommand])
  rw [Instr.commandWord, hargs, opcode_buildCommand, ← hopc, wordArg_append_wordOpc]

/-- An encoding has 4 + OPLEN bytes (30_encoding R56). -/
theorem length_encode (i : Instr) : (encode i).length = i.size := by
  rw [size_eq_four_add_length_operandBytes, encode, List.length_append, bytes32_length]

/-! The refusals. -/

/-- The decoder refuses exactly the words that `decodeWord` refuses, for the same reason (30_encoding R60, R63). -/
theorem decode_refusals_iff (b0 b1 b2 b3 : Byte) (rest : List Byte) :
    (decode (b0 :: b1 :: b2 :: b3 :: rest) = .illegalOpcode ↔ decodeWord (le32 b0 b1 b2 b3) = .illegalOpcode) ∧
      (decode (b0 :: b1 :: b2 :: b3 :: rest) = .reservedField ↔ decodeWord (le32 b0 b1 b2 b3) = .reservedField) := by
  simp only [decode]
  cases decodeWord (le32 b0 b1 b2 b3) with
  | illegalOpcode | reservedField => simp
  | legal op n => by_cases h : rest.length < n <;> simp [h]

/-- The opcodes whose ARG is reserved are all but UPDATE's (30_encoding R60). -/
theorem code_ne_two_iff (op : Opcode) :
    op.code ≠ 2 ↔ op.code = 1 ∨ op.code = 3 ∨ op.code = 4 ∨ op.code = 5 ∨ op.code = 6 := by
  cases op <;> decide

end Sys2Proof.Machine

namespace Sys2Proof.Proofs

open Sys2Proof Sys2Proof.Machine

/-- Settles O3: the encoder's word is legal with the operand bytes as OPLEN, and the command is built back from them. -/
theorem decodeOfEncode : Obligations.DecodeOfEncode := by
  unfold Obligations.DecodeOfEncode
  exact fun _ rest h => decode_encode_append h rest

/-- Settles O4: the parts `decode_command` finds are the encoder's command word and operand bytes. -/
theorem encodeOfDecode : Obligations.EncodeOfDecode := by
  unfold Obligations.EncodeOfDecode
  intro bs i rest h
  obtain ⟨b0, b1, b2, b3, p, op, n, rfl, hw, hp, rfl⟩ := decode_command h
  obtain ⟨-, -, hn⟩ := decodeWord_legal hw
  refine ⟨wellFormed_buildCommand (hp.trans hn), ?_, length_encode _⟩
  rw [encode, commandWord_buildCommand hw hp, operandBytes_buildCommand (hp.trans hn), bytes32_le32]
  rfl

/-- Settles O5: a word with a reserved OPC is illegal; of the listed ones, `decodeWord_le32_code` refuses those with
another OPC than UPDATE's and a non-zero ARG. -/
theorem refusedCommandWords : Obligations.RefusedCommandWords := by
  unfold Obligations.RefusedCommandWords
  intro b0 b1 b2 b3 rest
  obtain ⟨hill, hres⟩ := decode_refusals_iff b0 b1 b2 b3 rest
  rw [hill, hres]
  by_cases hopc : b0 = 0 ∨ 7 ≤ b0.toNat
  · have hlisted : ¬(b0 = 1 ∨ b0 = 3 ∨ b0 = 4 ∨ b0 = 5 ∨ b0 = 6) := by bv_omega
    rw [decodeWord_illegalOpcode hopc]
    exact ⟨iff_of_true rfl hopc, iff_of_false (by decide) fun h => hlisted h.1⟩
  · obtain ⟨op, rfl⟩ := exists_eq_code hopc
    have harg : b1.toNat + 256 * b2.toNat + 65536 * b3.toNat ≠ 0 ↔ ¬(b1 = 0 ∧ b2 = 0 ∧ b3 = 0) := by bv_omega
    rw [decodeWord_le32_code, ← code_ne_two_iff, ← harg]
    split_ifs with hfield
    · exact ⟨iff_of_false (by simp) hopc, iff_of_true rfl hfield⟩
    · exact ⟨iff_of_false (by simp) hopc, iff_of_false (by simp) hfield⟩

/-- Settles O6. The vector of COMPRESS is the encoding of its command, so O3's lemma decodes it; the others are short
enough to run. -/
theorem encodingVectors : Obligations.EncodingVectors := by
  unfold Obligations.EncodingVectors
  refine ⟨by decide, by decide, by decide, ?_, by decide, by decide, by decide, by decide, by decide, by decide,
    by decide⟩
  have h := decode_encode_append (i := .compress iv (Vector.replicate 64 0)) rfl []
  rwa [List.append_nil] at h

/-- Settles O7: the step's checks before a command are those of the command. -/
theorem stepRunsDecodedCommand : Obligations.StepRunsDecodedCommand := by
  unfold Obligations.StepRunsDecodedCommand
  exact fun _ _ _ hd => step_eq_exec_of_decode hd

end Sys2Proof.Proofs

/-! What the commands leave when the lifecycle allows them (60_exceptions section 1): the next state written out, and the
obligations that say it command by command; reset, and several engines side by side. -/

namespace Sys2Proof.Machine

@[simp] theorem effectOf_cause (i : Instr) (s : State) : (effectOf i s).cause = s.cause := by
  cases i <;> simp [effectOf]

/-- A command that the lifecycle allows completes, with its effect and CP past it (60_exceptions R120). -/
theorem exec_of_allowed {i : Instr} {s : State} (hf : s.fault = false) (hl : lifecycleFault i.opcode s.lc = none) :
    exec i s = .next ((effectOf i s).advance i.size) :=
  (exec_eq_runCommand i s).trans (runCommand_next hf hl)

/-- UPDATE and FINALIZE are allowed in ACTIVE, every other command always (60_exceptions R120, R124, R125). -/
theorem lifecycleFault_eq_none {op : Opcode} {lc : Lifecycle} (h : op = .update ∨ op = .finalize → lc = .active) :
    lifecycleFault op lc = none := by
  cases op with
  | update => rw [h (.inl rfl)]; rfl
  | finalize => rw [h (.inr rfl)]; rfl
  | init | compress | reverse | unreverse => rfl

/-- An UPDATE of no bytes leaves A to D, BUF and L (41_accumulator R94). -/
theorem absorb_nil (s : State) : s.absorb [] = s := by
  rw [absorb_eq_setAccumulator, List.length_nil, Nat.mul_zero, BitVec.add_zero]
  rfl

/-- Inversion of `stepInstance`: engine `k` takes its own step, and its next state takes its place. -/
theorem stepInstance_cases {k : Nat} {es es' : List State} (h : stepInstance k es = some (.next es')) :
    ∃ s t, es[k]? = some s ∧ step s = .next t ∧ es' = es.set k t := by
  unfold stepInstance at h
  split at h
  · cases h
  · next s hk =>
    split at h
    · next t ht =>
      cases h
      exact ⟨s, t, hk, ht, rfl⟩
    · cases h
    · cases h

end Sys2Proof.Machine

namespace Sys2Proof.Proofs

open Sys2Proof Sys2Proof.Machine

/-- Settles O1: every element named has its value in the reset record, and CP 0 leaves the whole stream pending. -/
theorem resetLeavesSpecValues : Obligations.ResetLeavesSpecValues := by
  unfold Obligations.ResetLeavesSpecValues
  have hstatus : State.reset.status = 0x00000000 := by decide
  exact ⟨⟨rfl, rfl, rfl, rfl, rfl, hstatus⟩, fun s cin => ⟨rfl, rfl, rfl, rfl, rfl, hstatus, rfl⟩⟩

/-- Settles O9: the lifecycle check passes, and no command's effect writes FAULT, CAUSE or CP. -/
theorem legalCommandsComplete : Obligations.LegalCommandsComplete := by
  unfold Obligations.LegalCommandsComplete
  exact fun i s hf hlc => ⟨_, exec_of_allowed hf (lifecycleFault_eq_none hlc), by simp [hf], by simp, by simp⟩

/-- Settles O16: INIT's next state is written out once, and the second INIT finds its A to D, L and LC already there. -/
theorem initEffect : Obligations.InitEffect := by
  unfold Obligations.InitEffect
  have hinit : ∀ s : State, s.fault = false → exec .init s = .next { s with
      chain := ⟨0x67452301, 0xefcdab89, 0x98badcfe, 0x10325476⟩, len := 0, lc := .active, cp := s.cp + 4 } :=
    fun s hf => exec_of_allowed hf rfl
  refine fun s hf => ⟨hinit s hf, fun t u ht hu => ?_⟩
  rw [hinit s hf] at ht
  cases ht
  rw [hinit] at hu
  · cases hu
    rfl
  · exact hf

/-- Settles O19: in ACTIVE the effect of no bytes is none; elsewhere it is the lifecycle fault of any UPDATE. -/
theorem emptyUpdate : Obligations.EmptyUpdate := by
  unfold Obligations.EmptyUpdate
  refine fun s hf => ⟨fun hlc => ?_, fun hlc => ?_, fun hlc => ?_⟩
  · rw [exec_update_of_active [] hf hlc, absorb_nil]
    rfl
  · exact exec_of_lifecycleFault hf (hlc ▸ lifecycleFault_uninit (.inl rfl))
  · exact exec_of_lifecycleFault hf (hlc ▸ lifecycleFault_spent (.inl rfl))

/-- Settles O33: COMPRESS is allowed in every lifecycle, and its effect is the result bytes in ROUT. -/
theorem compressEffect : Obligations.CompressEffect := by
  unfold Obligations.CompressEffect
  exact fun st blk s hf => exec_of_allowed hf rfl

/-- Settles O34: REVERSE is allowed in every lifecycle; `reverseChain` is the five steps with the constants' values. -/
theorem reverseEffect : Obligations.ReverseEffect := by
  unfold Obligations.ReverseEffect
  exact fun st s hf => exec_of_allowed hf rfl

/-- Settles O35: UNREVERSE is allowed in every lifecycle; `unreverseChain` is the inverse steps with the constants'
values. -/
theorem unreverseEffect : Obligations.UnreverseEffect := by
  unfold Obligations.UnreverseEffect
  exact fun st s hf => exec_of_allowed hf rfl

/-- Settles O41: the next state of engine `k` is set at its own place in the list, and nowhere else. -/
theorem instancesShareNothing : Obligations.InstancesShareNothing := by
  unfold Obligations.InstancesShareNothing
  intro k es es' h
  obtain ⟨s, t, hk, ht, rfl⟩ := stepInstance_cases h
  obtain ⟨hlt, -⟩ := List.getElem?_eq_some_iff.mp hk
  exact ⟨List.length_set, fun j hj => List.getElem?_set_ne hj.symm, s, t, hk, ht, List.getElem?_set_self hlt⟩

end Sys2Proof.Proofs

/-! The message the accumulator holds (10_state R35) and its digest (41_accumulator section 4): what INIT, UPDATE and
FINALIZE do to them, runs of UPDATEs, and the obligations about them. -/

namespace Sys2Proof.Machine

/-! The occupancy and the valid bytes of a held message. -/

theorem State.Holds.occ {s : State} {m : List Byte} (h : s.Holds m) : s.occ = m.length % 64 := by
  rw [State.occ, h.len, occOf_bitLength]

/-- The valid bytes of BUF are the message's rest after its complete blocks (10_state R35). -/
theorem State.Holds.valid_bytes {s : State} {m : List Byte} (h : s.Holds m) :
    s.buf.toList.take s.occ = m.drop (64 * (m.length / 64)) := by
  rw [h.occ, h.tail]

/-- Whether an accumulator holds a message depends on A to D, BUF and L alone. -/
theorem State.Holds.of_eq {s t : State} {m : List Byte} (h : s.Holds m) (hchain : t.chain = s.chain)
    (hbuf : t.buf = s.buf) (hlen : t.len = s.len) : t.Holds m :=
  ⟨hchain.trans h.chain, hbuf ▸ h.tail, hlen.trans h.len⟩

/-! INIT and UPDATE on the held message. -/

/-- After INIT the accumulator holds the empty message (41_accumulator R90). -/
theorem holds_nil_of_init (s : State) : (effectOf .init s).Holds [] := ⟨rfl, by simp, rfl⟩

/-- UPDATE appends its data to the message held (41_accumulator R91): the blocks of the whole are the message's blocks,
then those of its rest with the data. -/
theorem State.Holds.absorb {s : State} {m : List Byte} (h : s.Holds m) (data : List Byte) :
    (s.absorb data).Holds (m ++ data) := by
  obtain ⟨hchain, hlen, -, hbuf⟩ := absorb_eq s data
  rw [h.valid_bytes] at hchain hbuf
  rw [h.occ] at hbuf
  refine ⟨?_, ?_, ?_⟩
  · rw [hchain, h.chain, blocksOf_append m data, compressAll_append]
  · have hmod : (m ++ data).length % 64 = (m.length % 64 + data.length) % 64 := by
      rw [List.length_append, Nat.mod_add_mod]
    have hdiv : 64 * ((m ++ data).length / 64) =
        64 * (m.length / 64) + 64 * ((m.length % 64 + data.length) / 64) := by
      rw [List.length_append]; omega
    rw [hmod, hbuf, hdiv, ← List.drop_drop, List.drop_append_of_le_length (l₁ := m) (by omega)]
  · rw [hlen, h.len, bitLength, bitLength, ← BitVec.ofNat_add, List.length_append, Nat.mul_add]

/-! FINALIZE on the held message. -/

/-- The block of 64 bytes at the head of a byte sequence is its first block (40_compression R82). -/
theorem blocksOf_append_of_length {bs : List Byte} (h : bs.length = 64) (rest : List Byte) :
    blocksOf (bs ++ rest) = blockOfBytes bs :: blocksOf rest := by
  have hblk : (blockOfBytes bs).toList = bs := by
    rw [toList_blockOfBytes bs (by omega), List.take_of_length_le (by omega)]
  rw [← blocksOf_block_append, hblk]

theorem blocksOf_of_length {bs : List Byte} (h : bs.length = 64) : blocksOf bs = [blockOfBytes bs] := by
  have hblocks := blocksOf_append_of_length h []
  rwa [List.append_nil, blocksOf_short (bs := []) (by decide)] at hblocks

/-- What follows the message in its padded form: 0x80, zeros and the length field (41_accumulator R102). -/
def paddingOf (n : Nat) : List Byte := 0x80 :: (List.replicate (padZeros n) 0 ++ bytes64 (bitLength n))

theorem paddedMessage_eq_append (m : List Byte) : paddedMessage m = m ++ paddingOf m.length := by
  simp [paddedMessage, paddingOf]

/-- FINALIZE compresses the valid bytes and the padding, block by block (41_accumulator R95, R97, R102): one block where
they leave room for the length field, two where they do not. -/
theorem padAndCompress_eq_compressAll (chain : Chain) (buf : Block) (n : Nat) :
    (padAndCompress chain buf (bitLength n)).1 =
      compressAll chain (blocksOf (buf.toList.take (n % 64) ++ paddingOf n)) := by
  have hocc : occOf (bitLength n) = n % 64 := occOf_bitLength n
  have hvalid : (buf.toList.take (n % 64)).length = n % 64 := by simp; omega
  rcases Nat.lt_or_ge 55 (n % 64) with htwo | hone
  · have hzeros : padZeros n = (63 - n % 64) + 56 := by rw [padZeros]; omega
    have hpad : buf.toList.take (n % 64) ++ paddingOf n =
        (buf.toList.take (n % 64) ++ 0x80 :: List.replicate (63 - n % 64) 0) ++
          (List.replicate 56 0 ++ bytes64 (bitLength n)) := by
      rw [paddingOf, hzeros, List.replicate_add]
      simp only [List.append_assoc, List.cons_append]
    rw [padAndCompress_two _ _ _ (by omega), hocc, hpad, blocksOf_append_of_length, blocksOf_of_length]
    · rfl
    · rfl
    · rw [List.length_append, hvalid, List.length_cons, List.length_replicate]; omega
  · have hzeros : padZeros n = 55 - n % 64 := by rw [padZeros]; omega
    rw [padAndCompress_one _ _ _ (by omega), hocc, paddingOf, hzeros, blocksOf_of_length]
    · rfl
    · rw [List.length_append, hvalid, List.length_cons, List.length_append, List.length_replicate, bytes64_length]
      omega

/-- The state FINALIZE compresses a held message to is the chained compression of its padded form (41_accumulator
R102). -/
theorem State.Holds.padAndCompress_eq {s : State} {m : List Byte} (h : s.Holds m) :
    (padAndCompress s.chain s.buf s.len).1 = compressAll iv (blocksOf (paddedMessage m)) := by
  rw [h.len, padAndCompress_eq_compressAll, h.tail, h.chain, paddedMessage_eq_append, blocksOf_append m,
    compressAll_append]

/-- FINALIZE appends the bytes of its compressions to ROUT (41_accumulator R95). -/
theorem effectOf_finalize_rout (s : State) :
    (effectOf .finalize s).rout = s.rout ++ chainBytes (padAndCompress s.chain s.buf s.len).1 :=
  s.finish.undefineAccumulator_rout.trans s.finish_rout

/-- FINALIZE emits the digest of the message held (41_accumulator R101). -/
theorem State.Holds.finalize_rout {s : State} {m : List Byte} (h : s.Holds m) :
    (effectOf .finalize s).rout = s.rout ++ md4 m := by
  rw [effectOf_finalize_rout, h.padAndCompress_eq, md4]

/-! Runs of commands. -/

theorem execAll_cons {i : Instr} {s t : State} (h : exec i s = .next t) (is : List Instr) :
    execAll (i :: is) s = execAll is t := by
  simp only [execAll, h]

theorem execAll_append {is : List Instr} : ∀ {s t : State}, execAll is s = .next t → ∀ js : List Instr,
    execAll (is ++ js) s = execAll js t := by
  induction is with
  | nil =>
    intro s t h js
    cases h
    rfl
  | cons i is ih =>
    intro s t h js
    simp only [execAll] at h
    split at h
    · next u hu => exact (execAll_cons hu _).trans (ih h js)
    · cases h
    · cases h

/-- A run of UPDATEs in ACTIVE leaves what one update of all their bytes leaves, but for CP (41_accumulator R93). -/
theorem exists_execAll_updates (chunks : List (List Byte)) : ∀ s : State, s.fault = false → s.lc = .active →
    ∃ k, execAll (chunks.map .update) s = .next ((s.absorb chunks.flatten).advance k) := by
  induction chunks with
  | nil => exact fun s _ _ => ⟨0, by rw [List.flatten_nil, absorb_nil]; rfl⟩
  | cons c chunks ih =>
    intro s hf hlc
    obtain ⟨k, hk⟩ := ih ((s.absorb c).advance (4 + c.length)) (by simp [hf]) (by simp [hlc])
    rw [absorb_append] at hk
    exact ⟨4 + c.length + k, (execAll_cons (exec_update_of_active c hf hlc) _).trans
      (hk.trans (by simp only [List.flatten_cons, State.advance, Nat.add_assoc]))⟩

/-- A run of UPDATEs appends all their bytes to the message held, and leaves ROUT (41_accumulator R91). -/
theorem State.Holds.exists_execAll_updates {s : State} {m : List Byte} (h : s.Holds m) (hf : s.fault = false)
    (hlc : s.lc = .active) (chunks : List (List Byte)) :
    ∃ t, execAll (chunks.map .update) s = .next t ∧ t.fault = false ∧ t.lc = .active ∧ t.rout = s.rout ∧
      t.Holds (m ++ chunks.flatten) := by
  obtain ⟨k, hk⟩ := Machine.exists_execAll_updates chunks s hf hlc
  exact ⟨_, hk, by simp [hf], by simp [hlc], by simp, (h.absorb _).of_eq rfl rfl rfl⟩

/-- INIT, any UPDATEs and FINALIZE append the digest of the UPDATEs' bytes to ROUT, whatever the accumulator held
(41_accumulator R101). -/
theorem exists_execAll_hash (chunks : List (List Byte)) {s : State} (hf : s.fault = false) :
    ∃ t, execAll (.init :: (chunks.map .update ++ [.finalize])) s = .next t ∧ t.rout = s.rout ++ md4 chunks.flatten ∧
      t.fault = false := by
  have hinit : exec .init s = .next ((effectOf .init s).advance 4) := exec_of_allowed hf rfl
  have hempty : ((effectOf .init s).advance 4).Holds [] := (holds_nil_of_init s).of_eq rfl rfl rfl
  obtain ⟨u, hupdates, hfault, hactive, hrout, hheld⟩ := hempty.exists_execAll_updates hf rfl chunks
  have hfinal : exec .finalize u = .next ((effectOf .finalize u).advance 4) :=
    exec_of_allowed hfault (lifecycleFault_eq_none fun _ => hactive)
  refine ⟨(effectOf .finalize u).advance 4, ?_, ?_, by simp [hfault]⟩
  · rw [execAll_cons hinit, execAll_append hupdates, execAll_cons hfinal, execAll]
  · rw [State.advance_rout, hheld.finalize_rout, hrout]
    rfl

/-! The padded message. -/

/-- The padded message ends with a whole block, and there is one block for each complete 64 bytes of the message and its
length field, and one more (41_accumulator R102). -/
theorem length_paddedMessage (m : List Byte) : (paddedMessage m).length = 64 * ((m.length + 8) / 64 + 1) := by
  simp only [paddedMessage, padZeros, List.length_append, List.length_replicate, List.length_singleton, bytes64_length]
  omega

theorem padZeros_mod (n : Nat) : (n + 1 + padZeros n) % 64 = 56 := by rw [padZeros]; omega

/-- No fewer zeros bring the message and the byte 0x80 to 56 modulo 64 (41_accumulator R102). -/
theorem padZeros_le {n z : Nat} (h : (n + 1 + z) % 64 = 56) : padZeros n ≤ z := by rw [padZeros]; omega

end Sys2Proof.Machine

namespace Sys2Proof.Proofs

open Sys2Proof Sys2Proof.Machine

/-- Settles O21: `padAndCompress_one` and `padAndCompress_two`, with what FINALIZE's effect leaves of the rest. -/
theorem finalizeCompressions : Obligations.FinalizeCompressions := by
  unfold Obligations.FinalizeCompressions
  intro s hf hlc
  refine ⟨_, (padAndCompress s.chain s.buf s.len).1,
    exec_of_allowed hf (lifecycleFault_eq_none fun _ => hlc), ?_, effectOf_finalize_rout s, ?_, by simp [Instr.size],
    by simp [hf], by simp, by simp⟩
  · split_ifs with hocc
    · rw [padAndCompress_one _ _ _ hocc]
      simp only [State.occ, List.append_assoc, List.singleton_append]
      rfl
    · rw [padAndCompress_two _ _ _ (by rw [State.occ] at hocc; omega)]
      simp only [State.occ, List.append_assoc, List.singleton_append]
  · simp [lifecycleAfter]

/-- Settles O23: the effects of INIT, UPDATE and FINALIZE on the held message; CP is no part of it. -/
theorem commandsOnTheHeldMessage : Obligations.CommandsOnTheHeldMessage := by
  unfold Obligations.CommandsOnTheHeldMessage
  refine ⟨fun s hf => ?_, fun m data s hf hlc hm => ?_, fun m s hf hlc hm => ?_⟩
  · exact ⟨_, exec_of_allowed hf rfl, rfl, (holds_nil_of_init s).of_eq rfl rfl rfl⟩
  · exact ⟨_, exec_update_of_active data hf hlc, by simp [hlc], (hm.absorb data).of_eq rfl rfl rfl⟩
  · exact ⟨_, exec_of_allowed hf (lifecycleFault_eq_none fun _ => hlc), hm.finalize_rout⟩

/-- Settles O22: the run is `exists_execAll_hash`; the padded message's length gives the blocks. -/
theorem digestOfMessage : Obligations.DigestOfMessage := by
  unfold Obligations.DigestOfMessage
  refine ⟨fun chunks s hf => exists_execAll_hash chunks hf, fun m =>
    ⟨length_chainBytes _, padZeros_mod _, fun z => padZeros_le, ?_, ?_⟩⟩
  · rw [length_blocksOf, length_paddedMessage, Nat.mul_div_cancel_left _ (by decide)]
  · rw [length_blocksOf, length_paddedMessage, Nat.mul_div_cancel_left _ (by decide)]

/-- Settles O20: two UPDATEs are one but for CP by `absorb_append`; two partitions of one message both end with its
digest. -/
theorem chunkingInvariance : Obligations.ChunkingInvariance := by
  unfold Obligations.ChunkingInvariance
  refine ⟨fun p q s _ hf hlc => ?_, fun chunks chunks' s hmsg hf => ?_⟩
  · obtain ⟨k, hk⟩ := exists_execAll_updates [p, q] s hf hlc
    rw [List.flatten_cons, List.flatten_singleton] at hk
    exact ⟨_, _, hk, exec_update_of_active (p ++ q) hf hlc, rfl, rfl, rfl⟩
  · obtain ⟨t, ht, htrout, -⟩ := exists_execAll_hash chunks hf
    obtain ⟨u, hu, hurout, -⟩ := exists_execAll_hash chunks' hf
    exact ⟨t, u, ht, hu, by rw [htrout, hurout, hmsg]⟩

end Sys2Proof.Proofs

/-! The two invariants (10_state section 8): what every command's effect and every host action keep of the message held
and of the state's shape, and the obligations about them. -/

namespace Sys2Proof.Machine

/-! The message invariant. -/

/-- Whether the accumulator holds some message while ACTIVE depends on LC, A to D, BUF and L alone. -/
theorem State.MessageInv.of_eq {s t : State} (h : s.MessageInv) (hlc : t.lc = s.lc) (hchain : t.chain = s.chain)
    (hbuf : t.buf = s.buf) (hlen : t.len = s.len) : t.MessageInv := by
  intro hactive
  obtain ⟨m, hm⟩ := h (hlc ▸ hactive)
  exact ⟨m, hm.of_eq hchain hbuf hlen⟩

/-- Every command's effect keeps the message invariant (10_state R35): INIT starts a message, UPDATE appends to one,
FINALIZE leaves ACTIVE, and the other commands do not write the accumulator. -/
theorem State.MessageInv.effectOf {s : State} (h : s.MessageInv) (i : Instr) : (effectOf i s).MessageInv := by
  cases i with
  | init => exact fun _ => ⟨[], holds_nil_of_init s⟩
  | update data =>
    intro hactive
    obtain ⟨m, hm⟩ := h hactive
    exact ⟨m ++ data, hm.absorb data⟩
  | finalize =>
    intro hactive
    rw [effectOf_lc] at hactive
    cases hactive
  | compress | reverse | unreverse => exact h.of_eq rfl rfl rfl rfl

theorem State.MessageInv.step {s t : State} (h : s.MessageInv) (hstep : step s = .next t) : t.MessageInv := by
  obtain ⟨-, ⟨_, _, _, _, _, c, -, -, rfl⟩ | ⟨i, rest, -, -, rfl⟩⟩ := step_cases hstep
  · exact h.of_eq rfl rfl rfl rfl
  · exact (h.effectOf i).of_eq rfl rfl rfl rfl

/-- A step that raises a fault leaves LC and the message held (60_exceptions R127). -/
theorem State.Holds.step_fault {s t : State} {m : List Byte} (h : s.Holds m) (hstep : step s = .next t)
    (ht : t.fault = true) : t.lc = s.lc ∧ t.Holds m := by
  obtain ⟨hf, ⟨_, _, _, _, _, c, -, -, rfl⟩ | ⟨i, rest, -, -, rfl⟩⟩ := step_cases hstep
  · exact ⟨rfl, h.of_eq rfl rfl rfl⟩
  · exact absurd ht (effectOf_advance_fault_ne_true i hf)

/-- In ACTIVE a step on a whole command is that command's effect with CP past it. -/
theorem step_command_of_active {s t : State} {i : Instr} {rest : List Byte} (hlc : s.lc = .active)
    (hd : decode s.pending = .command i rest) (hstep : step s = .next t) : t = (effectOf i s).advance i.size := by
  rw [step_eq_exec_of_decode hd] at hstep
  obtain ⟨-, ⟨c, hc, -⟩ | ⟨-, ht⟩⟩ := exec_cases hstep
  · rw [lifecycleFault_eq_none fun _ => hlc] at hc
    cases hc
  · exact ht

/-! The state invariant. -/

/-- Results come whole, 16 bytes each (30_encoding R56). -/
theorem reslen_mod (i : Instr) : i.reslen % 16 = 0 := by cases i <;> simp [Instr.reslen]

/-- Every command's effect leaves L a multiple of 8 (10_state R25). -/
theorem effectOf_len_mod (i : Instr) {s : State} (h : s.len.toNat % 8 = 0) : (effectOf i s).len.toNat % 8 = 0 := by
  cases i with
  | init => rfl
  | update data =>
    rw [effectOf, toNat_absorb_len]
    omega
  | finalize => exact s.finish.undefineAccumulator_len_mod
  | compress | reverse | unreverse => exact h

/-- Fault entry keeps the state invariant: FAULT and CAUSE are written together (60_exceptions R127). -/
theorem State.Wf.enterFault {s : State} (h : s.Wf) {c : Cause} (hc : c ≠ .none) : (s.enterFault c).Wf :=
  ⟨iff_of_true rfl hc, h.cp, h.rout, h.len⟩

/-- A command's effect, with CP past the command and inside CIN, keeps the state invariant. -/
theorem State.Wf.effectOf_advance {s : State} (h : s.Wf) (i : Instr) (hcp : s.cp + i.size ≤ s.cin.length) :
    ((effectOf i s).advance i.size).Wf := by
  obtain ⟨out, hout, hlen⟩ := exists_effectOf_rout_eq_append i s
  have hres := reslen_mod i
  refine ⟨by simpa using h.cause, by simpa using hcp, ?_, effectOf_len_mod i h.len⟩
  rw [State.advance_rout, hout, List.length_append, hlen, Nat.add_mod, h.rout, hres]

theorem State.Wf.step {s t : State} (h : s.Wf) (hstep : step s = .next t) : t.Wf := by
  obtain ⟨hf, ⟨_, _, _, _, _, c, -, hc, rfl⟩ | ⟨i, rest, -, -, rfl⟩⟩ := step_cases hstep
  · exact h.enterFault (commandWordFault_ne_none hc)
  · have hpass := (step_halts_or_passes_word h.cp hstep).resolve_left (effectOf_advance_fault_ne_true i hf)
    exact h.effectOf_advance i (by simpa using hpass.2)

/-! Reset and the other host actions. -/

/-- Reset meets the state invariant with any command stream (10_state section 7). -/
theorem State.Wf.hostReset (s : State) (cin : List Byte) : (s.hostReset cin).Wf :=
  ⟨iff_of_false Bool.false_ne_true fun h => h rfl, Nat.zero_le _, rfl, rfl⟩

/-- Reset claims no message: LC is UNINIT (10_state R34). -/
theorem State.MessageInv.hostReset (s : State) (cin : List Byte) : (s.hostReset cin).MessageInv :=
  fun h => nomatch h

theorem State.Wf.applyHost {s : State} (h : s.Wf) (act : HostAction) : (applyHost act s).Wf := by
  cases act with
  | supply bs =>
    refine ⟨h.cause, ?_, h.rout, h.len⟩
    have hcp : s.cp ≤ s.cin.length := h.cp
    simp only [Machine.applyHost, State.supply_cp, State.supply_cin, List.length_append]
    omega
  | reset cin => exact State.Wf.hostReset s cin
  | readStatus | readRout => exact h

theorem State.MessageInv.applyHost {s : State} (h : s.MessageInv) (act : HostAction) :
    (applyHost act s).MessageInv := by
  cases act with
  | supply bs => exact h.of_eq rfl rfl rfl rfl
  | reset cin => exact State.MessageInv.hostReset s cin
  | readStatus | readRout => exact h

/-- What reset meets, and steps and host actions keep, holds of every reachable state. -/
theorem State.Reachable.invariant {P : State → Prop} (hreset : ∀ (s : State) (cin : List Byte), P (s.hostReset cin))
    (hstep : ∀ s t : State, P s → Machine.step s = .next t → P t)
    (hhost : ∀ (s : State) (act : HostAction), P s → P (Machine.applyHost act s)) {s : State} (h : s.Reachable) : P s := by
  induction h with
  | reset cin => exact hreset State.reset cin
  | step _ hs ih => exact hstep _ _ ih hs
  | host act _ ih => exact hhost _ act ih

end Sys2Proof.Machine

namespace Sys2Proof.Proofs

open Sys2Proof Sys2Proof.Machine

/-- Settles O24: a step's fault arm keeps the accumulator, and its command arm is the command's effect, which for each
command says which message is held after it. -/
theorem stepKeepsMessageInvariant : Obligations.StepKeepsMessageInvariant := by
  unfold Obligations.StepKeepsMessageInvariant
  refine ⟨fun s t h hstep => h.step hstep, fun s t m hlc hm hstep => ⟨fun ht => ?_, fun i rest hd => ?_⟩⟩
  · obtain ⟨hlc', hm'⟩ := hm.step_fault hstep ht
    exact ⟨hlc'.trans hlc, hm'⟩
  · obtain rfl := step_command_of_active hlc hd hstep
    cases i with
    | init => exact ⟨rfl, (holds_nil_of_init s).of_eq rfl rfl rfl⟩
    | update data => exact ⟨hlc, (hm.absorb data).of_eq rfl rfl rfl⟩
    | finalize => exact ⟨by simp [lifecycleAfter], hm.finalize_rout⟩
    | compress | reverse | unreverse => exact ⟨hlc, hm.of_eq rfl rfl rfl⟩

/-- Settles O26: a fault's cause is not 0x00, and a command's effect with CP past the command keeps each clause. -/
theorem stepKeepsStateInvariant : Obligations.StepKeepsStateInvariant := by
  unfold Obligations.StepKeepsStateInvariant
  exact fun s t h hstep => h.step hstep

/-- Settles O25: LC is UNINIT, FAULT and CAUSE are both clear, CP, L and the length of ROUT are 0. -/
theorem resetMeetsInvariants : Obligations.ResetMeetsInvariants := by
  unfold Obligations.ResetMeetsInvariants
  exact fun s cin => ⟨.hostReset s cin, .hostReset s cin, .hostReset State.reset []⟩

/-- Settles O27: `State.Reachable.invariant` for each of the two. -/
theorem reachableStatesMeetInvariants : Obligations.ReachableStatesMeetInvariants := by
  unfold Obligations.ReachableStatesMeetInvariants
  exact fun s h =>
    ⟨h.invariant State.Wf.hostReset (fun _ _ hwf => hwf.step) fun _ act hwf => hwf.applyHost act,
      h.invariant State.MessageInv.hostReset (fun _ _ hm => hm.step) fun _ act hm => hm.applyHost act⟩

end Sys2Proof.Proofs

/-! What the undefined values can affect (41_accumulator R100): states that agree on everything a command can read run
alike, and the obligation that says it. -/

namespace Sys2Proof.Machine

/-! FINALIZE and UPDATE read BUF below OCC only. -/

/-- FINALIZE's compressions depend on the valid bytes of BUF alone (41_accumulator R100). -/
theorem padAndCompress_congr (chain : Chain) {buf buf' : Block} {len : BitVec 64}
    (h : buf.toList.take (occOf len) = buf'.toList.take (occOf len)) :
    (padAndCompress chain buf len).1 = (padAndCompress chain buf' len).1 := by
  rcases Nat.lt_or_ge 55 (occOf len) with htwo | hone
  · rw [padAndCompress_two _ _ _ htwo, padAndCompress_two _ _ _ htwo, h]
  · rw [padAndCompress_one _ _ _ hone, padAndCompress_one _ _ _ hone, h]

/-- UPDATE keeps the agreement in ACTIVE: it reads the valid bytes of BUF alone and leaves such bytes (41_accumulator
R100). -/
theorem State.Agrees.absorb {s s' : State} (h : s.Agrees s') (hlc : s.lc = .active) (data : List Byte) :
    (s.absorb data).Agrees (s'.absorb data) := by
  obtain ⟨hchain, hlen, hocc, hbuf⟩ := absorb_eq s data
  obtain ⟨hchain', hlen', hocc', hbuf'⟩ := absorb_eq s' data
  have hoccs : s.occ = s'.occ := congrArg occOf (h.len hlc)
  exact
    { lc := h.lc, fault := h.fault, cause := h.cause, cp := h.cp, rout := h.rout, cin := h.cin
      chain := fun _ => by rw [hchain, hchain', h.chain hlc, h.buf hlc]
      len := fun _ => by rw [hlen, hlen', h.len hlc]
      buf := fun _ => by rw [hocc, hocc', hbuf, hbuf', h.buf hlc, hoccs] }

/-! The other effects. -/

theorem State.Agrees.advance {s s' : State} (h : s.Agrees s') (n : Nat) : (s.advance n).Agrees (s'.advance n) :=
  { h with cp := congrArg (· + n) h.cp }

theorem State.Agrees.emit {s s' : State} (h : s.Agrees s') (bs : List Byte) : (s.emit bs).Agrees (s'.emit bs) :=
  { h with rout := congrArg (· ++ bs) h.rout }

theorem State.Agrees.enterFault {s s' : State} (h : s.Agrees s') (c : Cause) :
    (s.enterFault c).Agrees (s'.enterFault c) :=
  { h with fault := rfl, cause := rfl }

/-- After INIT the accumulators agree, whatever they held: A to D and L are written, and no byte of BUF is valid
(41_accumulator R90). -/
theorem State.Agrees.init {s s' : State} (h : s.Agrees s') : (effectOf .init s).Agrees (effectOf .init s') :=
  { lc := rfl, fault := h.fault, cause := h.cause, cp := h.cp, rout := h.rout, cin := h.cin
    chain := fun _ => rfl
    len := fun _ => rfl
    buf := fun _ => (holds_nil_of_init s).valid_bytes.trans (holds_nil_of_init s').valid_bytes.symm }

/-- FINALIZE appends the same digest, and what A to D, BUF and L hold after it does not count: LC is SPENT (10_state
R36). -/
theorem State.Agrees.finalize {s s' : State} (h : s.Agrees s') (hlc : s.lc = .active) :
    (effectOf .finalize s).Agrees (effectOf .finalize s') := by
  have hlen := h.len hlc
  have hvalid : s.buf.toList.take (occOf s.len) = s'.buf.toList.take (occOf s.len) := by
    have hbuf := h.buf hlc
    rwa [State.occ, State.occ, ← hlen] at hbuf
  have hspent : (effectOf .finalize s).lc ≠ .active := by simp [lifecycleAfter]
  exact
    { lc := by simp [lifecycleAfter], fault := by simpa using h.fault, cause := by simpa using h.cause
      cp := by simpa using h.cp, cin := by simpa using h.cin
      rout := by
        rw [effectOf_finalize_rout, effectOf_finalize_rout, h.rout, padAndCompress_congr _ hvalid, h.chain hlc, hlen]
      chain := fun hactive => absurd hactive hspent
      len := fun hactive => absurd hactive hspent
      buf := fun hactive => absurd hactive hspent }

/-- Every command that the lifecycle allows keeps the agreement. -/
theorem State.Agrees.effectOf {s s' : State} (h : s.Agrees s') {i : Instr}
    (hl : lifecycleFault i.opcode s.lc = none) : (effectOf i s).Agrees (effectOf i s') := by
  cases i with
  | init => exact h.init
  | update data => exact h.absorb ((lifecycleFault_none hl).resolve_right fun hne => hne.1 rfl) data
  | finalize => exact h.finalize (active_of_finalize_allowed hl)
  | compress | reverse | unreverse => exact h.emit _

/-! Outcomes. -/

/-- Two outcomes that the host cannot tell apart: next states that agree, or the same stop. -/
inductive OutcomesAgree : Result → Result → Prop where
  | next {t t' : State} (h : t.Agrees t') : OutcomesAgree (.next t) (.next t')
  | fault (r : Fault) : OutcomesAgree (.fault r) (.fault r)

theorem State.Agrees.exec {s s' : State} (h : s.Agrees s') (i : Instr) : OutcomesAgree (exec i s) (exec i s') := by
  cases hf : s.fault with
  | true =>
    rw [exec_halted hf, exec_halted (h.fault ▸ hf), h.cause]
    exact .fault _
  | false =>
    have hf' : s'.fault = false := h.fault ▸ hf
    cases hl : lifecycleFault i.opcode s.lc with
    | some c =>
      rw [exec_of_lifecycleFault hf hl, exec_of_lifecycleFault hf' (h.lc ▸ hl)]
      exact .next (h.enterFault c)
    | none =>
      rw [exec_of_allowed hf hl, exec_of_allowed hf' (h.lc ▸ hl)]
      exact .next ((h.effectOf hl).advance i.size)

/-- The fetch reads FAULT, CAUSE, LC and the bytes at CP only (30_encoding R64). -/
theorem State.Agrees.fetch {s s' : State} (h : s.Agrees s') : fetch s = fetch s' := by
  have hpending : s.pending = s'.pending := by rw [State.pending, State.pending, h.cin, h.cp]
  rw [Machine.fetch, Machine.fetch, h.fault, h.cause, h.lc, hpending]

theorem State.Agrees.step {s s' : State} (h : s.Agrees s') : OutcomesAgree (step s) (step s') := by
  rw [Machine.step, Machine.step, ← h.fetch]
  cases Machine.fetch s with
  | run i => exact h.exec i
  | raise c => exact .next (h.enterFault c)
  | stop r => exact .fault r

end Sys2Proof.Machine

namespace Sys2Proof.Proofs

open Sys2Proof Sys2Proof.Machine

/-- Settles O28: the outcomes of the two steps agree, and STATUS is derived from what agreeing states share. -/
theorem undefinedValuesNeverMatter : Obligations.UndefinedValuesNeverMatter := by
  unfold Obligations.UndefinedValuesNeverMatter
  intro s s' h
  have hstep := h.step
  refine ⟨fun t ht => ?_, fun r hr => ?_⟩
  · rw [ht] at hstep
    generalize step s' = out at hstep
    cases hstep with
    | next hagree => exact ⟨_, rfl, hagree, State.status_congr hagree.lc hagree.fault hagree.cause⟩
  · rw [hr] at hstep
    generalize step s' = out at hstep
    cases hstep with
    | fault => rfl

end Sys2Proof.Proofs

/-! Mixing functions and rotations bit by bit (40_compression section 2, 00_scope R12), and the obligations about them. -/

namespace Sys2Proof.Machine

/-! Bits of the mixing functions. -/

/-- F selects: y's bit where x's is 1, z's where it is 0 (40_compression R71). -/
theorem getLsbD_mixF (x y z : Word) (i : Nat) :
    (mixF x y z).getLsbD i = if x.getLsbD i then y.getLsbD i else z.getLsbD i := by
  have hselect : ∀ p q r : Bool, (r ^^ (p && (q ^^ r))) = if p then q else r := by decide
  simp only [mixF, BitVec.getLsbD_xor, BitVec.getLsbD_and, hselect]

/-- F in its other form (40_compression R71). -/
theorem mixF_eq_or (x y z : Word) : mixF x y z = (x &&& y) ||| (~~~x &&& z) := by
  apply BitVec.eq_of_getLsbD_eq
  intro i hi
  have hselect : ∀ p q r : Bool, (if p then q else r) = (p && q || !p && r) := by decide
  rw [getLsbD_mixF, hselect]
  simp only [BitVec.getLsbD_or, BitVec.getLsbD_and, BitVec.getLsbD_not, hi, decide_true, Bool.true_and]

/-- G is the majority of the three bits (40_compression R72). -/
theorem getLsbD_mixG (x y z : Word) (i : Nat) :
    (mixG x y z).getLsbD i =
      decide (2 ≤ (x.getLsbD i).toNat + (y.getLsbD i).toNat + (z.getLsbD i).toNat) := by
  have hmajority : ∀ p q r : Bool, (p && (q || r) || q && r) = decide (2 ≤ p.toNat + q.toNat + r.toNat) := by decide
  simp only [mixG, BitVec.getLsbD_or, BitVec.getLsbD_and, hmajority]

/-- H is the parity of the three bits (40_compression R73). -/
theorem getLsbD_mixH (x y z : Word) (i : Nat) :
    (mixH x y z).getLsbD i =
      decide (((x.getLsbD i).toNat + (y.getLsbD i).toNat + (z.getLsbD i).toNat) % 2 = 1) := by
  have hparity : ∀ p q r : Bool, (p ^^ q ^^ r) = decide ((p.toNat + q.toNat + r.toNat) % 2 = 1) := by decide
  simp only [mixH, BitVec.getLsbD_xor, hparity]

/-! Rotations. -/

/-- The formula is the library's left rotation (00_scope R12). -/
theorem rotl_eq_rotateLeft (x : Word) {n : Nat} (h : n < 32) : rotl x n = x.rotateLeft n := by
  rw [BitVec.rotateLeft_eq_rotateLeftAux_of_lt h]
  rfl

/-- The right rotation undoes the left one (00_scope R12). -/
theorem rotr_rotl (x : Word) {n : Nat} (h1 : 1 ≤ n) (h2 : n ≤ 31) : rotr (rotl x n) n = x := by
  apply BitVec.eq_of_getLsbD_eq
  intro i hi
  rw [rotr, getLsbD_rotl _ _ _ hi (by omega)]
  split_ifs with h
  · rw [getLsbD_rotl _ _ _ (by omega) (by omega), if_neg (by omega)]
    congr 1; omega
  · rw [getLsbD_rotl _ _ _ (by omega) (by omega), if_pos (by omega)]
    congr 1; omega

/-- The left rotation undoes the right one: it is the right one by `32 - n`. -/
theorem rotl_rotr (x : Word) {n : Nat} (h1 : 1 ≤ n) (h2 : n ≤ 31) : rotl (rotr x n) n = x := by
  have h := rotr_rotl x (n := 32 - n) (by omega) (by omega)
  rwa [rotr, show 32 - (32 - n) = n by omega] at h

/-- Every step of the schedule rotates by one of eight amounts (40_compression R78). -/
theorem scheduleRow_rotation_mem : ∀ j, j < 48 → (scheduleRow j).s ∈ [3, 5, 7, 9, 11, 13, 15, 19] := by decide

end Sys2Proof.Machine

namespace Sys2Proof.Proofs

open Sys2Proof Sys2Proof.Machine

/-- Settles O31: `mixF_eq_or`, and the bit of each of the three functions; the examples are single words. -/
theorem mixingFunctions : Obligations.MixingFunctions := by
  unfold Obligations.MixingFunctions
  refine ⟨fun x y z => ⟨rfl, mixF_eq_or x y z, fun i _ => getLsbD_mixF x y z i, rfl, fun i _ => getLsbD_mixG x y z i,
    rfl, fun i _ => getLsbD_mixH x y z i, rfl, rfl, rfl⟩, ?_, ?_, ?_, ?_⟩
  all_goals decide

/-- Settles O32: `rotl_eq_rotateLeft`, `rotr_rotl`, and the amounts of the 48 rows. -/
theorem rotations : Obligations.Rotations := by
  unfold Obligations.Rotations
  exact ⟨fun x n h1 h2 => ⟨rfl, rotl_eq_rotateLeft x (by omega), rfl, rotr_rotl x h1 h2⟩, scheduleRow_rotation_mem⟩

end Sys2Proof.Proofs

/-! The reversal (42_reversal section 3): the two transforms undo each other, what REVERSE finds in the digest of a
one-block message, and the obligations about them. -/

namespace Sys2Proof.Machine

/-! The round trip. -/

theorem unreverseChain_reverseChain (st : Chain) : unreverseChain (reverseChain st) = st := by
  simp only [unreverseChain, reverseChain, BitVec.sub_add_cancel]
  rw [rotl_rotr _ (by decide) (by decide), BitVec.sub_add_cancel, rotl_rotr _ (by decide) (by decide),
    BitVec.sub_add_cancel]

theorem reverseChain_unreverseChain (st : Chain) : reverseChain (unreverseChain st) = st := by
  simp only [unreverseChain, reverseChain, BitVec.add_sub_cancel]
  rw [rotr_rotl _ (by decide) (by decide), BitVec.add_sub_cancel, rotr_rotl _ (by decide) (by decide),
    BitVec.add_sub_cancel]

/-- The state read from the result bytes a command has just appended is the result (30_encoding R61, R62). -/
theorem chainOfBytes_drop_emit (s : State) (st : Chain) (n : Nat) :
    chainOfBytes (((s.emit (chainBytes st)).advance n).rout.drop s.rout.length) = st := by
  rw [State.advance_rout, State.emit_rout, List.drop_left, ← List.append_nil (chainBytes st), chainOfBytes_chainBytes]

theorem exec_reverse (st : Chain) {s : State} (hf : s.fault = false) :
    exec (.reverse st) s = .next ((s.emit (chainBytes (reverseChain st))).advance 20) :=
  exec_of_allowed hf rfl

theorem exec_unreverse (st : Chain) {s : State} (hf : s.fault = false) :
    exec (.unreverse st) s = .next ((s.emit (chainBytes (unreverseChain st))).advance 20) :=
  exec_of_allowed hf rfl

/-! The last steps of a compression from IV. -/

/-- A step writes its target alone (40_compression R75). -/
theorem readReg_compressStep_of_ne {r : ScheduleRow} {q : Reg} (h : q ≠ r.t) (blk : Block) (w : Chain) :
    readReg (compressStep blk w r) q = readReg w q := by
  rw [compressStep, readReg_writeReg, if_neg h]

/-- Step 43 writes B, from X[13] (40_compression R79). -/
theorem workingAfter_44 (st : Chain) (blk : Block) :
    workingAfter st blk 44 = { workingAfter st blk 43 with
      b := rotl ((workingAfter st blk 43).b +
        mixH (workingAfter st blk 43).c (workingAfter st blk 43).d (workingAfter st blk 43).a + blockWord blk 13 +
        roundConst3) 15 } :=
  workingAfter_succ st blk 43 (by decide)

/-- Step 47, the last, writes B, from X[15] (40_compression R79). -/
theorem workingAfter_48 (st : Chain) (blk : Block) :
    workingAfter st blk 48 = { workingAfter st blk 47 with
      b := rotl ((workingAfter st blk 47).b +
        mixH (workingAfter st blk 47).c (workingAfter st blk 47).d (workingAfter st blk 47).a + blockWord blk 15 +
        roundConst3) 15 } :=
  workingAfter_succ st blk 47 (by decide)

/-- Steps 44 to 46 write A, D and C, and leave B (40_compression R76). -/
theorem workingAfter_47_b (st : Chain) (blk : Block) : (workingAfter st blk 47).b = (workingAfter st blk 44).b := by
  have hkeep : ∀ j, j < 48 → .b ≠ (scheduleRow j).t →
      readReg (workingAfter st blk (j + 1)) .b = readReg (workingAfter st blk j) .b := fun j hj hb => by
    rw [workingAfter_succ st blk j hj, readReg_compressStep_of_ne hb]
  have h44 := hkeep 44 (by decide) (by decide)
  have h45 := hkeep 45 (by decide) (by decide)
  have h46 := hkeep 46 (by decide) (by decide)
  exact h46.trans (h45.trans h44)

/-- REVERSE of a state to which IV has been fed forward sees the state itself (42_reversal R110). -/
theorem reverseChain_addChain_iv (w : Chain) :
    reverseChain (addChain iv w) =
      ⟨w.a, rotr (rotr w.b 15 - (roundConst3 + mixH w.c w.d w.a)) 15 - roundConst3, w.c, w.d⟩ := by
  have hcancel (x y : Word) : x + y - x = y := by rw [BitVec.add_comm, BitVec.add_sub_cancel]
  simp only [reverseChain, addChain, hcancel, mixH]

/-- Where the block's last word is 0, REVERSE undoes step 47, and takes B back through the rotation and the constant of
step 43 (42_reversal R113). -/
theorem reverseChain_compressBlock_iv {blk : Block} (h : blockWord blk 15 = 0) :
    reverseChain (compressBlock iv blk) =
      { workingAfter iv blk 48 with
        b := (workingAfter iv blk 43).b +
          mixH (workingAfter iv blk 43).c (workingAfter iv blk 43).d (workingAfter iv blk 43).a + blockWord blk 13 } := by
  have hlast (x y : Word) : x + y + 0 + roundConst3 - (roundConst3 + y) = x := by ring
  rw [compressBlock, reverseChain_addChain_iv, workingAfter_48, h]
  simp only
  rw [rotr_rotl _ (by decide) (by decide), hlast, workingAfter_47_b, workingAfter_44]
  simp only
  rw [rotr_rotl _ (by decide) (by decide), BitVec.add_sub_cancel]

/-! The padded form of a short message. -/

/-- A length field below 2^32 ends with four zero bytes (00_scope R13). -/
theorem bytes64_of_lt {v : BitVec 64} (h : v.toNat < 2 ^ 32) :
    bytes64 v = (bytes64 v).take 4 ++ List.replicate 4 0 := by
  have hhigh : ∀ k, 32 ≤ k → v.extractLsb' k 8 = 0 := by
    intro k hk
    have hlt : v.toNat < 2 ^ k := h.trans_le (Nat.pow_le_pow_right (by decide) hk)
    apply BitVec.eq_of_toNat_eq
    rw [BitVec.extractLsb'_toNat, Nat.shiftRight_eq_div_pow, Nat.div_eq_of_lt hlt]
    rfl
  simp [bytes64, hhigh]

/-- Four zero bytes of an operand are the word 0. -/
theorem operandWord_append_zeros (q : List Byte) : operandWord (q ++ List.replicate 4 0) q.length = 0 := by
  have hzero : le32 0#8 0#8 0#8 0#8 = 0#32 := by decide
  simp [operandWord, operandByte, List.getD_eq_getElem?_getD, hzero]

/-- The length field ends a padded message of one block, and its high half is 0: the block's last word is 0
(41_accumulator R102, 42_reversal R113). -/
theorem blockWord_15_paddedMessage {m : List Byte} (h : m.length ≤ 55) :
    blockWord (blockOfBytes (paddedMessage m)) 15 = 0 := by
  have hbits : (bitLength m.length).toNat < 2 ^ 32 := by rw [bitLength, BitVec.toNat_ofNat]; omega
  have hword : blockWord (blockOfBytes (paddedMessage m)) 15 = operandWord (paddedMessage m) 60 := by
    simp [blockWord, blockOfBytes, operandWord]
  have hlen : (m ++ [0x80] ++ List.replicate (padZeros m.length) 0 ++ (bytes64 (bitLength m.length)).take 4).length =
      60 := by
    simp [padZeros]; omega
  rw [hword, paddedMessage, bytes64_of_lt hbits, ← List.append_assoc, ← hlen, operandWord_append_zeros]

/-- A message of at most 55 bytes pads to one block (41_accumulator R102). -/
theorem blocksOf_paddedMessage_short {m : List Byte} (h : m.length ≤ 55) :
    blocksOf (paddedMessage m) = [blockOfBytes (paddedMessage m)] :=
  blocksOf_of_length (by rw [length_paddedMessage]; omega)

end Sys2Proof.Machine

namespace Sys2Proof.Proofs

open Sys2Proof Sys2Proof.Machine

/-- Settles O36: the transforms undo each other, and the second command reads the first one's result as it was. -/
theorem reversalRoundTrip : Obligations.ReversalRoundTrip := by
  unfold Obligations.ReversalRoundTrip
  refine ⟨fun st => ⟨unreverseChain_reverseChain st, reverseChain_unreverseChain st⟩, fun st s hf => ⟨?_, ?_⟩⟩
  · refine ⟨_, _, exec_reverse st hf, exec_unreverse _ (by simpa using hf), ?_⟩
    rw [chainOfBytes_drop_emit, unreverseChain_reverseChain]
    rfl
  · refine ⟨_, _, exec_unreverse st hf, exec_reverse _ (by simpa using hf), ?_⟩
    rw [chainOfBytes_drop_emit, reverseChain_unreverseChain]
    rfl

/-- Settles O37: the words of IV, written out. -/
theorem reversalOtherWords : Obligations.ReversalOtherWords := by
  unfold Obligations.ReversalOtherWords
  exact fun st => ⟨rfl, rfl, rfl, rfl, rfl, rfl⟩

/-- Settles O38: `reverseChain_compressBlock_iv` gives the four registers, step 43 the last equation, and a short
message's one padded block ends with a zero word. -/
theorem reverseOfOneBlockDigest : Obligations.ReverseOfOneBlockDigest := by
  unfold Obligations.ReverseOfOneBlockDigest
  refine ⟨fun blk h => ?_, fun m hm => ?_⟩
  · simp only [reverseChain_compressBlock_iv h, Nat.reduceAdd, true_and]
    exact congrArg Chain.b (workingAfter_44 iv blk)
  · refine ⟨_, blocksOf_paddedMessage_short hm, blockWord_15_paddedMessage hm, ?_⟩
    rw [md4, blocksOf_paddedMessage_short hm]
    rfl

end Sys2Proof.Proofs

/-! Where a run stands at its end (70_reset_and_hazards R150), the pseudo-instructions and the assembler's examples
(30_encoding section 6), and the obligations about them. -/

namespace Sys2Proof.Machine

/-! The ends of a run. -/

/-- With CP inside CIN, no byte is pending exactly where CP is at the end of CIN. -/
theorem State.pending_eq_nil_iff {s : State} (hcp : s.cp ≤ s.cin.length) : s.pending = [] ↔ s.cp = s.cin.length := by
  rw [State.pending, List.drop_eq_nil_iff]
  omega

/-- With no byte pending the next command's word is missing (20_memory R49). -/
theorem State.needsBytes_of_pending_eq_nil {s : State} (h : s.pending = []) : s.needsBytes = true := by
  simp only [State.needsBytes, h, decode]

theorem State.runEnd_eq_faulted_iff (s : State) : s.runEnd = some .faulted ↔ s.fault = true := by
  unfold State.runEnd
  split_ifs <;> simp_all

theorem State.runEnd_eq_complete_iff (s : State) :
    s.runEnd = some .complete ↔ s.fault = false ∧ s.cp = s.cin.length := by
  unfold State.runEnd
  split_ifs <;> simp_all

theorem State.runEnd_eq_incomplete_iff (s : State) :
    s.runEnd = some .incomplete ↔ s.fault = false ∧ s.cp < s.cin.length ∧ s.needsBytes = true := by
  unfold State.runEnd
  split_ifs <;> simp_all

/-- At each of its three ends a run takes no step (70_reset_and_hazards R150). -/
theorem exists_stop_of_runEnd_ne_none {s : State} (hcp : s.cp ≤ s.cin.length) (h : s.runEnd ≠ none) :
    ∃ r, step s = .fault r := by
  obtain ⟨e, he⟩ := Option.ne_none_iff_exists'.mp h
  cases e with
  | faulted => exact ⟨_, step_halted (s.runEnd_eq_faulted_iff.mp he)⟩
  | complete =>
    obtain ⟨hf, hend⟩ := s.runEnd_eq_complete_iff.mp he
    exact ⟨_, step_of_needsBytes hf (State.needsBytes_of_pending_eq_nil ((State.pending_eq_nil_iff hcp).mpr hend))⟩
  | incomplete =>
    obtain ⟨hf, -, hneeds⟩ := s.runEnd_eq_incomplete_iff.mp he
    exact ⟨_, step_of_needsBytes hf hneeds⟩

/-- With bytes pending, the engine waits as incomplete exactly where the command at CP needs more (20_memory R49). -/
theorem step_eq_incomplete_iff {s : State} (hf : s.fault = false) (hlt : s.cp < s.cin.length) :
    step s = .fault .incomplete ↔ s.needsBytes = true := by
  constructor
  · intro hstop
    cases hn : s.needsBytes with
    | true => rfl
    | false =>
      obtain ⟨t, ht⟩ := exists_step_eq_next hf hn
      rw [ht] at hstop
      cases hstop
  · intro hn
    have hpending : s.pending ≠ [] := fun h => hlt.ne ((State.pending_eq_nil_iff hlt.le).mp h)
    rw [step_of_needsBytes hf hn, if_neg hpending]

/-! Long UPDATEs (30_encoding R68). -/

theorem flatten_splitChunks (limit k : Nat) : ∀ m : List Byte, (splitChunks limit k m).flatten = m := by
  induction k with
  | zero => exact fun m => List.flatten_singleton
  | succ k ih =>
    intro m
    rw [splitChunks]
    split_ifs
    · exact List.flatten_singleton
    · rw [List.flatten_cons, ih, List.take_append_drop]

/-- Bytes that one UPDATE can carry go as one chunk. -/
theorem splitChunks_of_le {limit : Nat} {m : List Byte} (h : m.length ≤ limit) (k : Nat) :
    splitChunks limit k m = [m] := by
  cases k with
  | zero => rfl
  | succ k => rw [splitChunks, if_pos h]

/-- Every chunk but the last has `limit` bytes, and the last has no more. -/
theorem exists_splitChunks_eq_append {limit : Nat} (hlimit : 0 < limit) (k : Nat) : ∀ m : List Byte, m.length ≤ k →
    ∃ chunks last, splitChunks limit k m = chunks ++ [last] ∧ (∀ c ∈ chunks, c.length = limit) ∧
      last.length ≤ limit := by
  induction k with
  | zero => exact fun m hm => ⟨[], m, rfl, by simp, by omega⟩
  | succ k ih =>
    intro m hm
    rw [splitChunks]
    split_ifs with hle
    · exact ⟨[], m, rfl, by simp, hle⟩
    · obtain ⟨chunks, last, hsplit, hfull, hlast⟩ := ih (m.drop limit) (by rw [List.length_drop]; omega)
      refine ⟨m.take limit :: chunks, last, by rw [hsplit]; rfl, ?_, hlast⟩
      have hfirst : (m.take limit).length = limit := List.length_take_of_le (by omega)
      exact List.forall_mem_cons.mpr ⟨hfirst, hfull⟩

/-- The chunks of a long UPDATE (30_encoding R68). -/
def updateChunks (m : List Byte) : List (List Byte) := splitChunks maxUpdateLen m.length m

theorem expandUpdate_eq_map (m : List Byte) : expandUpdate m = (updateChunks m).map .update := rfl

theorem flatten_updateChunks (m : List Byte) : (updateChunks m).flatten = m := flatten_splitChunks _ _ m

theorem updateChunks_of_le {m : List Byte} (h : m.length ≤ 16777215) : updateChunks m = [m] := splitChunks_of_le h _

theorem exists_updateChunks_eq_append (m : List Byte) :
    ∃ chunks last, updateChunks m = chunks ++ [last] ∧ (∀ c ∈ chunks, c.length = 16777215) ∧
      last.length ≤ 16777215 :=
  exists_splitChunks_eq_append (by decide) _ m le_rfl

/-- One UPDATE can carry each chunk (30_encoding R59). -/
theorem wellFormed_update_of_mem_updateChunks {m c : List Byte} (h : c ∈ updateChunks m) :
    (Instr.update c).WellFormed := by
  obtain ⟨chunks, last, hsplit, hfull, hlast⟩ := exists_updateChunks_eq_append m
  rw [hsplit, List.mem_append, List.mem_singleton] at h
  obtain hc | rfl := h
  · exact decide_eq_true (hfull c hc).le
  · exact decide_eq_true hlast

/-- HASH expands to commands the encoding can spell (30_encoding R68). -/
theorem wellFormed_of_mem_expandHash {m : List Byte} {i : Instr} (h : i ∈ expandHash m) : i.WellFormed := by
  rw [expandHash, expandUpdate_eq_map, List.mem_cons, List.mem_append, List.mem_map, List.mem_singleton] at h
  obtain rfl | ⟨c, hc, rfl⟩ | rfl := h
  · rfl
  · exact wellFormed_update_of_mem_updateChunks hc
  · rfl

/-- The encoding of UPDATE is its header, OPC and LEN, then the data (30_encoding R57, R59). -/
theorem encode_update (data : List Byte) :
    encode (.update data) = bytes32 (BitVec.ofNat 24 data.length ++ Opcode.update.code) ++ data := rfl

end Sys2Proof.Machine

namespace Sys2Proof.Proofs

open Sys2Proof Sys2Proof.Machine

/-- Settles O39: at an end of the run the step stops, elsewhere it answers a next state, and no outcome is both; the
three ends are the branches of `State.runEnd`. -/
theorem noStepExactlyAtTheEnd : Obligations.NoStepExactlyAtTheEnd := by
  unfold Obligations.NoStepExactlyAtTheEnd
  intro s hcp
  refine ⟨⟨?_, exists_stop_of_runEnd_ne_none hcp⟩, ⟨?_, exists_step_of_runEnd_eq_none hcp⟩, s.runEnd_eq_faulted_iff,
    s.runEnd_eq_complete_iff, ?_⟩
  · rintro ⟨r, hr⟩ hend
    obtain ⟨t, ht⟩ := exists_step_of_runEnd_eq_none hcp hend
    rw [hr] at ht
    cases ht
  · rintro ⟨t, ht⟩
    by_contra hend
    obtain ⟨r, hr⟩ := exists_stop_of_runEnd_ne_none hcp hend
    rw [ht] at hr
    cases hr
  · rw [s.runEnd_eq_incomplete_iff]
    exact and_congr_right fun hf => and_congr_right fun hlt => (step_eq_incomplete_iff hf hlt).symm

/-- Settles O42: the expansions are UPDATEs of `updateChunks`, whose bytes are the message, so a run of them is one
update of the message, and between INIT and FINALIZE it emits the digest. -/
theorem pseudoInstructionExpansions : Obligations.PseudoInstructionExpansions := by
  unfold Obligations.PseudoInstructionExpansions
  refine ⟨fun m => ?_, fun m s hf hlc => ?_, fun m => ⟨rfl, fun hm => ?_⟩, fun m i => wellFormed_of_mem_expandHash,
    fun m s hf => ?_⟩
  · obtain ⟨chunks, last, hsplit, hfull, hlast⟩ := exists_updateChunks_eq_append m
    refine ⟨chunks, last, by rw [expandUpdate_eq_map, hsplit], hfull, hlast, by rw [← hsplit, flatten_updateChunks],
      fun hm => ?_⟩
    rw [updateChunks_of_le hm] at hsplit
    have hone : [] ++ [m] = chunks ++ [last] := hsplit
    obtain ⟨hnil, heq⟩ := List.append_inj' hone rfl
    exact ⟨hnil.symm, (List.singleton_inj.mp heq).symm⟩
  · obtain ⟨k, hk⟩ := exists_execAll_updates (updateChunks m) s hf hlc
    rw [flatten_updateChunks] at hk
    exact ⟨_, _, hk, exec_update_of_active m hf hlc, rfl, rfl, rfl, rfl, rfl, by simp [hf]⟩
  · rw [expandHash, expandUpdate_eq_map, updateChunks_of_le hm]
    rfl
  · obtain ⟨t, ht, hrout, -⟩ := exists_execAll_hash (updateChunks m) hf
    exact ⟨t, ht, by rw [hrout, flatten_updateChunks]⟩

/-- Settles O43: the seven texts are short enough to assemble; the eighth is UPDATE's header for LEN 300. -/
theorem assemblyExamples : Obligations.AssemblyExamples := by
  unfold Obligations.AssemblyExamples
  refine ⟨by decide, by decide, by decide, fun data hlen => ?_, by decide, by decide +kernel, by decide +kernel,
    by decide +kernel⟩
  have hheader : bytes32 (BitVec.ofNat 24 300 ++ Opcode.update.code) = [0x02, 0x2c, 0x01, 0x00] := by decide
  rw [encode_update, hlen, hheader]

end Sys2Proof.Proofs
